-- ==== Sys2Proof/Word.lean ====
section
/-! DEFINITION. The byte, the 20-byte frame and the 6-byte payload (R7, R12, R13). Nothing wider than a byte is ever computed with on the wire (R62), so the model has no other word. -/

namespace Sys2Proof

/-- A byte: an unsigned eight-bit value (R12, BYTE_WIDTH of R7). -/
abbrev Byte := BitVec 8

/-- A frame: exactly 20 bytes, `f[0]` to `f[19]` (R13, R90, FRAME_LENGTH of R7). A frame of another length cannot
be written down (R110). -/
abbrev Frame := Vector Byte 20

/-- A command payload: exactly 6 bytes, `p[0]` to `p[5]` (R13, R93, PAYLOAD_LENGTH of R7). -/
abbrev Payload := Vector Byte 6

end Sys2Proof
end

