-- ==== Sys2Proof/Config.lean ====
section
/-! DEFINITION. What is fixed for one instance of the block: the on-wire codes the spec leaves OPEN (R8), and the
one free value of the model (the bytes of `buf` that a RESET leaves unspecified, R40 and R143). The codes the spec
fixes are no parameters: they stand with the tables in Machine/Tables.lean. -/

namespace Sys2Proof

/-- The OPEN code parameters of R8, one field each, named as R8 names them. They are fixed when an instance is
built and stay constant (R36). A record of this type can break the conditions of R9; Machine/Tables.lean states
them (`wellFormedCfg`), and an instance with such a record is refused (`BadConfig`). -/
structure Cfg where
  /-- POWER_OFF_CODE -/
  powerOff : Byte
  /-- MODE_AUTO_CODE -/
  modeAuto : Byte
  /-- MODE_DRY_CODE -/
  modeDry : Byte
  /-- MODE_FAN_CODE -/
  modeFan : Byte
  /-- MODE_OFF_CODE -/
  modeOff : Byte
  /-- FAN_AUTO_CODE -/
  fanAuto : Byte
  /-- FAN_QUIET_CODE -/
  fanQuiet : Byte
  /-- FAN_LOW_CODE -/
  fanLow : Byte
  /-- VFLOW_POS2_CODE -/
  vflowPos2 : Byte
  /-- VFLOW_POS3_CODE -/
  vflowPos3 : Byte
  /-- VFLOW_POS4_CODE -/
  vflowPos4 : Byte
  /-- VFLOW_POS5_CODE -/
  vflowPos5 : Byte
  /-- VFLOW_POS6_CODE -/
  vflowPos6 : Byte
  /-- HFLOW_POS2_CODE -/
  hflowPos2 : Byte
  /-- HFLOW_POS3_CODE -/
  hflowPos3 : Byte
  /-- HFLOW_POS4_CODE -/
  hflowPos4 : Byte
  /-- HFLOW_POS5_CODE -/
  hflowPos5 : Byte
  /-- HFLOW_POS6_CODE -/
  hflowPos6 : Byte
  /-- HFLOW_SWING_CODE -/
  hflowSwing : Byte
  deriving DecidableEq, Repr

/-- `cfg_T` of 95_test_vectors.md section 0: the spec's hypothetical configuration, "for testing only", not device
codes. DESIGN CHOICE (log entry 6, unsafe): `State.reset` holds it, because the spec leaves these codes OPEN; no
obligation rests on its values. -/
def Cfg.testing : Cfg where
  powerOff := 0xA0
  modeAuto := 0xA1
  modeDry := 0xA2
  modeFan := 0xA3
  modeOff := 0xA4
  fanAuto := 0xB1
  fanQuiet := 0xB2
  fanLow := 0xB3
  vflowPos2 := 0xC2
  vflowPos3 := 0xC3
  vflowPos4 := 0xC4
  vflowPos5 := 0xC5
  vflowPos6 := 0xC6
  hflowPos2 := 0xD2
  hflowPos3 := 0xD3
  hflowPos4 := 0xD4
  hflowPos5 := 0xD5
  hflowPos6 := 0xD6
  hflowSwing := 0xD7

/-- The free value (log entry 4): the `n`-th byte the hardware leaves unspecified. It has no body, so no proof can
learn a value of it. -/
opaque Config.freeByte : Nat → Byte

end Sys2Proof
end

