-- ==== Sys2Proof/Syntax.lean ====
section
/-! DEFINITION. The operations of the block as syntax: the semantic values of the code tables (R96 to R100), the
DesiredState operand (R105), the request a host puts to an instance (R102, R104), and `Instr`, one constructor per
row of spec/opcode_table.json. -/

namespace Sys2Proof

/-- The power state (R96). -/
inductive Power where
  | off
  | on
  deriving DecidableEq, Repr

/-- The operating modes (R97): five modes and OFF (90_conflicts.md C2). FAN is the source's "fan-only". -/
inductive Mode where
  | off
  | auto
  | cool
  | dry
  | fan
  | heat
  deriving DecidableEq, Repr

/-- The fan speeds (R98). -/
inductive FanSpeed where
  | auto
  | quiet
  | low
  | medium
  | high
  deriving DecidableEq, Repr

/-- The airflow values of both airflow tables: six fixed positions, or swing (R99, R100). -/
inductive Airflow where
  | pos1
  | pos2
  | pos3
  | pos4
  | pos5
  | pos6
  | swing
  deriving DecidableEq, Repr

/-- `mode_req` of R105: no mode requested (0), a mode (1 to 6), or the reserved value 7. -/
inductive ModeReq where
  | noRequest
  | want (m : Mode)
  | reserved7
  deriving DecidableEq, Repr

/-- `fan_req` of R105: no fan mode requested (0), a speed (1 to 5), or the reserved values 6 and 7. -/
inductive FanReq where
  | noRequest
  | want (f : FanSpeed)
  | reserved6
  | reserved7
  deriving DecidableEq, Repr

/-- DesiredState, the operand of ENCODE (R105). `tempQ88` is the signed Q8.8 target temperature (R10), ignored when
`tempPresent` is false. There is no power field and no airflow position (90_conflicts.md C7, C6). -/
structure DesiredState where
  modeReq : ModeReq
  fanReq : FanReq
  vswing : Bool
  hswing : Bool
  tempPresent : Bool
  tempQ88 : BitVec 16
  deriving DecidableEq, Repr

/-- The seven operations the select names (R102). -/
inductive Op where
  | feed
  | check
  | extract
  | decode
  | encode
  | rx
  | reset
  deriving DecidableEq, Repr

/-- A request as the host puts it to an instance (R102): the select `op[2:0]` and an operand of some width. Whether
the width is the one the select demands is the decoder's question (R103). -/
structure Request where
  op : BitVec 3
  width : Nat
  operand : BitVec width
  deriving DecidableEq, Repr

/-- The operations with their operands: one constructor per row of spec/opcode_table.json (R102, R104). -/
inductive Instr where
  /-- FEED (R140): ingest one byte. -/
  | feed (b : Byte)
  /-- CHECK (R161): test a frame's checksum. -/
  | check (f : Frame)
  /-- EXTRACT (R168): extract the semantic fields, checksum not looked at. -/
  | extract (f : Frame)
  /-- DECODE (R169): check, then extract. -/
  | decode (f : Frame)
  /-- ENCODE (R206): build a command payload. -/
  | encode (d : DesiredState)
  /-- RX (R230): feed one byte and decode the frame it completes. -/
  | rx (b : Byte)
  /-- RESET (R143): the reassembler back to the reset state. -/
  | reset
  deriving DecidableEq, Repr

end Sys2Proof
end

