-- ==== Sys2Proof/WellFormed.lean ====
section
/-! DEFINITION. Which operations are well formed: every one, but an ENCODE of a reserved DesiredState value (R106).
No byte value and no frame is illegal (R109), and every `temp_q88` is legal, present or not (R106). -/

namespace Sys2Proof

/-- `mode_req` is not the reserved 7 (R106). -/
def ModeReq.legal : ModeReq → Bool
  | .noRequest => true
  | .want _ => true
  | .reserved7 => false

/-- `fan_req` is neither of the reserved 6 and 7 (R106). -/
def FanReq.legal : FanReq → Bool
  | .noRequest => true
  | .want _ => true
  | .reserved6 => false
  | .reserved7 => false

/-- A DesiredState of which R106 says it is legal. -/
def DesiredState.legal (d : DesiredState) : Bool := d.modeReq.legal && d.fanReq.legal

/-- The well-formedness of an operation (R106, R109). -/
def Instr.wellFormed : Instr → Bool
  | .feed _ => true
  | .check _ => true
  | .extract _ => true
  | .decode _ => true
  | .encode d => d.legal
  | .rx _ => true
  | .reset => true

end Sys2Proof
end

