-- ==== Sys2Proof/Decode.lean ====
section
/-! DEFINITION. The operation interface's encoding (R102 to R106): packing and unpacking of operands, the decoder
`decode` (total on every request, rejecting by name), and the encoder `encode` written from the same tables.
A reserved DesiredState value is an encoding of a DesiredState (R105), which ENCODE itself refuses (R206), so it
decodes; only `op = 0b111` and an operand of the wrong width do not (R103). -/

namespace Sys2Proof

/-- Why a request is no operation (R103). -/
inductive DecodeError where
  /-- `op = 0b111` selects nothing (refusal ReservedOp). -/
  | reservedOp
  /-- The operand has not the width the select demands (refusal BadOperand). -/
  | badOperand
  deriving DecidableEq, Repr

/-- The select value of an operation (R102). -/
def Op.bits : Op → BitVec 3
  | .feed => 0b000
  | .check => 0b001
  | .extract => 0b010
  | .decode => 0b011
  | .encode => 0b100
  | .rx => 0b101
  | .reset => 0b110

/-- The operation a select value names (R102); `0b111` names none (R103). -/
def Op.ofBits (v : BitVec 3) : Option Op :=
  match v.toNat with
  | 0 => some .feed
  | 1 => some .check
  | 2 => some .extract
  | 3 => some .decode
  | 4 => some .encode
  | 5 => some .rx
  | 6 => some .reset
  | _ => none

/-- The operand width each select demands: the formats B8, F160, DS25 and no operand (R104). -/
def Op.operandWidth : Op → Nat
  | .feed => 8
  | .check => 160
  | .extract => 160
  | .decode => 160
  | .encode => 25
  | .rx => 8
  | .reset => 0

/-- Bytes packed little-first: the first byte is the least significant (R104). -/
def packBytes : List Byte → Nat
  | [] => 0
  | b :: bs => b.toNat + 256 * packBytes bs

/-- A frame as its 160-bit word: byte `i` is bits `[8i+7:8i]` (R104). -/
def frameBits (f : Frame) : BitVec 160 := BitVec.ofNat 160 (packBytes f.toList)

/-- The frame a 160-bit word holds: byte `i` is bits `[8i+7:8i]` (R104). -/
def frameOfBits (v : BitVec 160) : Frame := Vector.ofFn fun i => v.extractLsb' (8 * i.val) 8

/-- A payload as its 48-bit word: byte `i` is bits `[8i+7:8i]` (R104). -/
def payloadBits (p : Payload) : BitVec 48 := BitVec.ofNat 48 (packBytes p.toList)

/-- The `mode_req` numbers (R105). -/
def ModeReq.bits : ModeReq → BitVec 3
  | .noRequest => 0
  | .want .off => 1
  | .want .auto => 2
  | .want .cool => 3
  | .want .dry => 4
  | .want .fan => 5
  | .want .heat => 6
  | .reserved7 => 7

/-- What a `mode_req` number stands for (R105). -/
def ModeReq.ofBits (v : BitVec 3) : ModeReq :=
  match v.toNat with
  | 0 => .noRequest
  | 1 => .want .off
  | 2 => .want .auto
  | 3 => .want .cool
  | 4 => .want .dry
  | 5 => .want .fan
  | 6 => .want .heat
  | _ => .reserved7

/-- The `fan_req` numbers (R105). -/
def FanReq.bits : FanReq → BitVec 3
  | .noRequest => 0
  | .want .auto => 1
  | .want .quiet => 2
  | .want .low => 3
  | .want .medium => 4
  | .want .high => 5
  | .reserved6 => 6
  | .reserved7 => 7

/-- What a `fan_req` number stands for (R105). -/
def FanReq.ofBits (v : BitVec 3) : FanReq :=
  match v.toNat with
  | 0 => .noRequest
  | 1 => .want .auto
  | 2 => .want .quiet
  | 3 => .want .low
  | 4 => .want .medium
  | 5 => .want .high
  | 6 => .reserved6
  | _ => .reserved7

/-- A DesiredState as its 25 bits (R105): `temp_q88[24:9]`, `temp_present[8]`, `hswing[7]`, `vswing[6]`,
`fan_req[5:3]`, `mode_req[2:0]`. -/
def DesiredState.bits (d : DesiredState) : BitVec 25 :=
  d.tempQ88 ++ BitVec.ofBool d.tempPresent ++ BitVec.ofBool d.hswing ++ BitVec.ofBool d.vswing
    ++ d.fanReq.bits ++ d.modeReq.bits

/-- The DesiredState 25 bits hold (R105). -/
def DesiredState.ofBits (v : BitVec 25) : DesiredState where
  modeReq := ModeReq.ofBits (v.extractLsb' 0 3)
  fanReq := FanReq.ofBits (v.extractLsb' 3 3)
  vswing := v.getLsbD 6
  hswing := v.getLsbD 7
  tempPresent := v.getLsbD 8
  tempQ88 := v.extractLsb' 9 16

/-- The operation of a select with an operand of the width it demands (R104). -/
def Op.withOperand {w : Nat} (op : Op) (v : BitVec w) : Instr :=
  match op with
  | .feed => .feed (v.setWidth 8)
  | .check => .check (frameOfBits (v.setWidth 160))
  | .extract => .extract (frameOfBits (v.setWidth 160))
  | .decode => .decode (frameOfBits (v.setWidth 160))
  | .encode => .encode (DesiredState.ofBits (v.setWidth 25))
  | .rx => .rx (v.setWidth 8)
  | .reset => .reset

/-- The decoder: total on every request. A reserved select is rejected before the operand's width is looked at,
whatever the operand (R103; VX1 of 95_test_vectors.md). -/
def decode (r : Request) : Except DecodeError Instr :=
  match Op.ofBits r.op with
  | none => .error .reservedOp
  | some op => if r.width = op.operandWidth then .ok (op.withOperand r.operand) else .error .badOperand

/-- The encoder: the request that stands for an operation (R102, R104, R105). -/
def encode : Instr → Request
  | .feed b => ⟨Op.bits .feed, 8, b⟩
  | .check f => ⟨Op.bits .check, 160, frameBits f⟩
  | .extract f => ⟨Op.bits .extract, 160, frameBits f⟩
  | .decode f => ⟨Op.bits .decode, 160, frameBits f⟩
  | .encode d => ⟨Op.bits .encode, 25, d.bits⟩
  | .rx b => ⟨Op.bits .rx, 8, b⟩
  | .reset => ⟨Op.bits .reset, 0, 0⟩

/-- The request that a word of the host's numbering stands for (log entry 9, DESIGN CHOICE): bits `[2:0]` are the
select, the operand follows from bit 3 with the width the select demands, and every bit from `nbits` up is 0. Bits
of the word above the operand only fill its last byte. This adapter is the host's view, no part of the block. -/
def Request.ofTableWord (nbits w : Nat) : Request :=
  let v := w % 2 ^ nbits
  let op := BitVec.ofNat 3 v
  let width := match Op.ofBits op with
    | some o => o.operandWidth
    | none => 0
  ⟨op, width, BitVec.ofNat width (v / 8)⟩

/-- The operation the decoder reads from a word in the opcode table's numbering. -/
def decodeTableWord (nbits w : Nat) : Option Instr :=
  match decode (Request.ofTableWord nbits w) with
  | .ok i => some i
  | .error _ => none

end Sys2Proof
end

