-- ==== Sys2Proof/Machine/Results.lean ====
section
/-! DEFINITION. The results operations return (R104, R107, R108), as types. A result field that the spec calls
"meaningful only when" has no value otherwise: it is absent here, in an Option or an Except (R104). -/

namespace Sys2Proof

/-- SemanticState, the decoded record (R107). `unk` numbers its flags as R107 does: bit 0 power, 1 mode, 2 fan,
3 vertical airflow, 4 horizontal airflow. -/
structure SemanticState where
  power : Power
  curTemp : Byte
  mode : Mode
  fan : FanSpeed
  vflow : Airflow
  hflow : Airflow
  unk : BitVec 5
  deriving DecidableEq, Repr

/-- The errors DECODE can return: E1 alone (R108, R241). E2 is a flag of `unk` (R242); E3 and E4 are the
transport's (R243, R244). -/
inductive FrameError where
  | checksumMismatch
  deriving DecidableEq, Repr

/-- What one operation returns (R104). -/
inductive Result where
  /-- FEED: the emitted frame, if one was emitted. -/
  | feed (frame : Option Frame)
  /-- CHECK: whether the frame is valid. -/
  | check (valid : Bool)
  /-- EXTRACT: the decoded record. -/
  | extract (st : SemanticState)
  /-- DECODE: the decoded record, or the error. -/
  | decode (r : Except FrameError SemanticState)
  /-- ENCODE: the command payload. -/
  | encode (p : Payload)
  /-- RX: the emitted frame with its decoding, if a frame was emitted. -/
  | rx (r : Option (Frame × Except FrameError SemanticState))
  /-- RESET: it returned; it has no result fields. -/
  | reset
  deriving DecidableEq, Repr

/-- The block's events (R248): each is part of one operation's result, and none persists. -/
inductive Event where
  | frameEmitted (f : Frame)
  | frameDecoded (st : SemanticState)
  | checksumMismatch
  deriving DecidableEq, Repr

end Sys2Proof
end

