-- ==== Sys2Proof/Machine/State.lean ====
section
/-! DEFINITION. The state of one instance, the reasons a step stops, and the state after reset. The spec gives an
instance exactly `buf` and `cursor` (R30) and a constant `cfg` (R36, R37); the last three fields are the model's
own: the host's interface and the free value's counter. -/

namespace Sys2Proof.Machine

/-- The state of one instance. -/
structure State where
  /-- `buf[0]` to `buf[19]`, the reassembly buffer (R30, R31). -/
  buf : Frame
  /-- The write cursor, five bits with the legal values 0 to 19 (R30, R32); R32 allows this type, which holds R33. -/
  cursor : Fin 20
  /-- The instance's configuration (R8), fixed when it is built and written by nothing (R36). -/
  cfg : Cfg
  /-- MODEL's own (log entry 1): the requests the host has issued and the block has not yet taken, oldest first. -/
  requests : List Request
  /-- MODEL's own (log entry 3): the results returned so far, oldest first: the observation of R15. -/
  results : List Result
  /-- MODEL's own (log entry 4): how many free bytes have been drawn. -/
  freeCount : Nat
  deriving DecidableEq, Repr

/-- The block has no fault outcome and no fault bits (R15, R246): no reason exists, so no step can fault. Safe. -/
inductive Fault where
  deriving DecidableEq, Repr

/-- Why a request makes no step (R245). All are safe: a run that is refused satisfies no claim. -/
inductive Refusal where
  /-- Raised by exec's arm of an instruction that has no meaning yet; none is left. Safe. -/
  | notModelled (mnemonic : String)
  /-- ReservedOp: raised by `step` on `op = 0b111` (R103). Safe. -/
  | reservedOp
  /-- BadOperand: raised by `step` on an operand of the wrong width (R103). Safe. -/
  | badOperand
  /-- ReservedValue: raised by ENCODE on a reserved DesiredState value (R106, R206). Safe. -/
  | reservedValue
  /-- BadConfig: raised by every operation of an instance whose configuration is ill formed (R9). Safe. -/
  | badConfig
  deriving DecidableEq, Repr

/-- What an operation of the block ends in (R15): the next state, or a refusal; there are no faults. -/
abbrev Outcome := Host.Outcome State Fault Refusal

/-- An instance built with `cfg`, just powered on: the state of R40 (R41). The spec leaves `buf` unspecified;
DESIGN CHOICE (log entry 5, unsafe): it starts as zeros. -/
def State.powerOn (cfg : Cfg) : State where
  buf := Vector.replicate 20 0
  cursor := 0
  cfg := cfg
  requests := []
  results := []
  freeCount := 0

/-- The machine right after reset (R40, R270). DESIGN CHOICE (log entry 6, unsafe): its OPEN codes are those of
the spec's test configuration. -/
def State.reset : State := State.powerOn Cfg.testing

end Sys2Proof.Machine
end

