-- ==== Sys2Proof/Machine/Tables.lean ====
section
/-! DEFINITION. The code tables (R95 to R100), which the extractor and the encoder share (R37), with the codes the
spec fixes (R8), the lookups in both directions, and the conditions on a configuration (R9). Encoding is total;
decoding gives an Option, and the extractor applies the default (R95). -/

namespace Sys2Proof.Machine

/-- The power codes (R96): POWER_ON_CODE is 0x01. -/
def powerCode (cfg : Cfg) : Power → Byte
  | .on => 0x01
  | .off => cfg.powerOff

/-- The mode codes (R97): MODE_COOL_CODE is 0x01 and MODE_HEAT_CODE 0x04. -/
def modeCode (cfg : Cfg) : Mode → Byte
  | .cool => 0x01
  | .heat => 0x04
  | .auto => cfg.modeAuto
  | .dry => cfg.modeDry
  | .fan => cfg.modeFan
  | .off => cfg.modeOff

/-- The fan-speed codes (R98): FAN_HIGH_CODE is 0x0B and FAN_MEDIUM_CODE 0x08. -/
def fanCode (cfg : Cfg) : FanSpeed → Byte
  | .high => 0x0B
  | .medium => 0x08
  | .auto => cfg.fanAuto
  | .quiet => cfg.fanQuiet
  | .low => cfg.fanLow

/-- The vertical-airflow codes (R99): VFLOW_POS1_CODE is 0x01 and VFLOW_SWING_CODE 0x20. -/
def vflowCode (cfg : Cfg) : Airflow → Byte
  | .pos1 => 0x01
  | .pos2 => cfg.vflowPos2
  | .pos3 => cfg.vflowPos3
  | .pos4 => cfg.vflowPos4
  | .pos5 => cfg.vflowPos5
  | .pos6 => cfg.vflowPos6
  | .swing => 0x20

/-- The horizontal-airflow codes (R100): HFLOW_POS1_CODE is 0x01; the swing code is a parameter of its own. -/
def hflowCode (cfg : Cfg) : Airflow → Byte
  | .pos1 => 0x01
  | .pos2 => cfg.hflowPos2
  | .pos3 => cfg.hflowPos3
  | .pos4 => cfg.hflowPos4
  | .pos5 => cfg.hflowPos5
  | .pos6 => cfg.hflowPos6
  | .swing => cfg.hflowSwing

/-- The rows of the power table (R96). -/
def powerRows : List Power := [.on, .off]

/-- The rows of the mode table (R97). -/
def modeRows : List Mode := [.cool, .heat, .auto, .dry, .fan, .off]

/-- The rows of the fan-speed table (R98). -/
def fanRows : List FanSpeed := [.high, .medium, .auto, .quiet, .low]

/-- The rows of each airflow table (R99, R100). -/
def airflowRows : List Airflow := [.pos1, .pos2, .pos3, .pos4, .pos5, .pos6, .swing]

/-- Decoding by a table (R95): the row whose code is `c`, or none. -/
def lookupIn {α : Type} (code : α → Byte) (rows : List α) (c : Byte) : Option α := rows.find? fun r => code r == c

/-- Two fan codes share one decoded value: quiet collapses to low (R98, R164). -/
def collapseQuiet : FanSpeed → FanSpeed
  | .quiet => .low
  | f => f

/-- `lookupPower` (R162). -/
def lookupPower (cfg : Cfg) (c : Byte) : Option Power := lookupIn (powerCode cfg) powerRows c

/-- `lookupMode` (R163). -/
def lookupMode (cfg : Cfg) (c : Byte) : Option Mode := lookupIn (modeCode cfg) modeRows c

/-- `lookupFan` (R164). -/
def lookupFan (cfg : Cfg) (c : Byte) : Option FanSpeed := (lookupIn (fanCode cfg) fanRows c).map collapseQuiet

/-- `lookupVflow` (R165). -/
def lookupVflow (cfg : Cfg) (c : Byte) : Option Airflow := lookupIn (vflowCode cfg) airflowRows c

/-- `lookupHflow` (R166). -/
def lookupHflow (cfg : Cfg) (c : Byte) : Option Airflow := lookupIn (hflowCode cfg) airflowRows c

/-- A well-formed configuration (R9): within each table every code is distinct from every other, and
MODE_AUTO_CODE, MODE_DRY_CODE and MODE_FAN_CODE are not 0xFF. Codes of different tables may be equal. -/
def wellFormedCfg (cfg : Cfg) : Bool :=
  decide ((powerRows.map (powerCode cfg)).Nodup ∧ (modeRows.map (modeCode cfg)).Nodup ∧
    (fanRows.map (fanCode cfg)).Nodup ∧ (airflowRows.map (vflowCode cfg)).Nodup ∧
    (airflowRows.map (hflowCode cfg)).Nodup ∧ cfg.modeAuto ≠ 0xFF ∧ cfg.modeDry ≠ 0xFF ∧ cfg.modeFan ≠ 0xFF)

end Sys2Proof.Machine
end

