-- ==== Sys2Proof/Machine/Operands.lean ====
section
/-! DEFINITION. Where the fields of the operands stand: the byte map of a frame (R90), the byte map of a payload
(R93), and the requested target temperature of a DesiredState (R10). All of R7's constants that are not a length are
here. Reserved bytes 0-4 and 11-18 of a frame have no reader but the checksum (R91). -/

namespace Sys2Proof.Machine

/-- Byte 5: the power code (OFF_POWER). -/
def framePower (f : Frame) : Byte := f[5]

/-- Byte 6: the current temperature, `cur_temp(f)` (OFF_CURTEMP, R167): unsigned, not scaled, no offset. -/
def frameCurTemp (f : Frame) : Byte := f[6]

/-- Byte 7: the operating-mode code (OFF_MODE). -/
def frameMode (f : Frame) : Byte := f[7]

/-- Byte 8: the fan-speed code (OFF_FAN). -/
def frameFan (f : Frame) : Byte := f[8]

/-- Byte 9: the vertical-airflow code (OFF_VFLOW). -/
def frameVflow (f : Frame) : Byte := f[9]

/-- Byte 10: the horizontal-airflow code (OFF_HFLOW). -/
def frameHflow (f : Frame) : Byte := f[10]

/-- Byte 19: the checksum (OFF_CHECKSUM). -/
def frameChecksum (f : Frame) : Byte := f[19]

/-- The payload's fixed byte order (R93): power, mode, temperature, fan, vertical flow, horizontal flow. -/
def payloadOf (power mode temp fan vflow hflow : Byte) : Payload := #v[power, mode, temp, fan, vflow, hflow]

/-- The requested target temperature in 256ths of a degree, `sint16(temp_q88)` (R10). -/
abbrev targetTemp256 (d : DesiredState) : Int := d.tempQ88.toInt

/-- TEMP_MIN, in degrees (R7). -/
abbrev tempMin : Int := 16

/-- TEMP_MAX, in degrees (R7). -/
abbrev tempMax : Int := 30

/-- TEMP_ABSENT_BYTE (R7). -/
abbrev tempAbsentByte : Byte := 0x00

end Sys2Proof.Machine
end

