-- ==== Sys2Proof/Machine/Flags.lean ====
section
/-! DEFINITION. Every status the block produces. None is stored (R35): the checksum and the validity it gives
(R160, R161), the unknown-code flags (R162 to R166), the bit encodings of results (R104, R107, R108), and the events
of a result (R231, R248). -/

namespace Sys2Proof.Machine

/-- `sum(f[a..b])`: the integer sum of the half-open slice (R13). -/
def sumSlice (f : Frame) (a b : Nat) : Nat := (((f.toList.drop a).take (b - a)).map BitVec.toNat).sum

/-- `CK(f)`, the sum of bytes 0 to 18 mod 256 (R160; CHECKSUM_SPAN of R7). Byte 19 is no part of it. -/
def checksum (f : Frame) : Byte := BitVec.ofNat 8 (sumSlice f 0 19 % 256)

/-- Validity (R92, R161): byte 19 equals the checksum. It is the only acceptance gate (R172). -/
def frameValid (f : Frame) : Bool := frameChecksum f == checksum f

/-- `unk[4:0]` of a frame (R168): `{hflow, vflow, fan, mode, power}`, each 1 when that byte has no table entry. -/
def unknownFlags (cfg : Cfg) (f : Frame) : BitVec 5 :=
  BitVec.ofBool (lookupHflow cfg (frameHflow f)).isNone ++ BitVec.ofBool (lookupVflow cfg (frameVflow f)).isNone
    ++ BitVec.ofBool (lookupFan cfg (frameFan f)).isNone ++ BitVec.ofBool (lookupMode cfg (frameMode f)).isNone
    ++ BitVec.ofBool (lookupPower cfg (framePower f)).isNone

/-- The number of a power value in a SemanticState (R107). -/
def powerNumber : Power → BitVec 1
  | .off => 0
  | .on => 1

/-- The number of a mode in a SemanticState (R107). -/
def modeNumber : Mode → BitVec 3
  | .off => 0
  | .auto => 1
  | .cool => 2
  | .dry => 3
  | .fan => 4
  | .heat => 5

/-- The number of a fan speed in a SemanticState (R107). -/
def fanNumber : FanSpeed → BitVec 3
  | .auto => 0
  | .quiet => 1
  | .low => 2
  | .medium => 3
  | .high => 4

/-- The number of an airflow value in a SemanticState (R107). -/
def airflowNumber : Airflow → BitVec 3
  | .pos1 => 0
  | .pos2 => 1
  | .pos3 => 2
  | .pos4 => 3
  | .pos5 => 4
  | .pos6 => 5
  | .swing => 6

/-- A SemanticState as its 26 bits (R107): `unk[25:21]`, `hflow[20:18]`, `vflow[17:15]`, `fan[14:12]`,
`mode[11:9]`, `cur_temp[8:1]`, `power[0]`. -/
def semanticBits (st : SemanticState) : BitVec 26 :=
  st.unk ++ airflowNumber st.hflow ++ airflowNumber st.vflow ++ fanNumber st.fan ++ modeNumber st.mode
    ++ st.curTemp ++ powerNumber st.power

/-- The `status` bit of a decoding: 0 is OK, 1 is CHECKSUM_MISMATCH (R108). -/
def statusBit : Except FrameError SemanticState → BitVec 1
  | .ok _ => 0
  | .error .checksumMismatch => 1

/-- The decoded record of a decoding, as bits, meaningful only when `status` is OK (R104). -/
def decodedBits : Except FrameError SemanticState → Option (BitVec 26)
  | .ok st => some (semanticBits st)
  | .error .checksumMismatch => none

/-- The `emitted` bit, a result field of FEED and RX (R104, R108). -/
def emittedBit : Result → Option (BitVec 1)
  | .feed o => some (BitVec.ofBool o.isSome)
  | .rx o => some (BitVec.ofBool o.isSome)
  | .check _ => none
  | .extract _ => none
  | .decode _ => none
  | .encode _ => none
  | .reset => none

/-- The frame FEED or RX emitted; meaningful only when `emitted` is 1 (R104). -/
def emittedFrame : Result → Option Frame
  | .feed o => o
  | .rx o => o.map Prod.fst
  | .check _ => none
  | .extract _ => none
  | .decode _ => none
  | .encode _ => none
  | .reset => none

/-- The 160-bit `frame` field, where it is meaningful (R104). -/
def frameField (r : Result) : Option (BitVec 160) := (emittedFrame r).map frameBits

/-- The `valid` bit, a result field of CHECK (R104, R108). -/
def validBit : Result → Option (BitVec 1)
  | .check v => some (BitVec.ofBool v)
  | .feed _ => none
  | .rx _ => none
  | .extract _ => none
  | .decode _ => none
  | .encode _ => none
  | .reset => none

/-- The decoding inside a result: DECODE's, or RX's of the frame it emitted. -/
def decodingOf : Result → Option (Except FrameError SemanticState)
  | .decode r => some r
  | .rx o => o.map Prod.snd
  | .feed _ => none
  | .check _ => none
  | .extract _ => none
  | .encode _ => none
  | .reset => none

/-- The `status` bit, where it is meaningful (R104, R108). -/
def statusField (r : Result) : Option (BitVec 1) := (decodingOf r).map statusBit

/-- The 26-bit `st` field, where it is meaningful (R104). -/
def stField : Result → Option (BitVec 26)
  | .extract st => some (semanticBits st)
  | .decode r => decodedBits r
  | .rx o => (o.map Prod.snd).bind decodedBits
  | .feed _ => none
  | .check _ => none
  | .encode _ => none
  | .reset => none

/-- The 48-bit `p` field of ENCODE (R104). -/
def payloadField : Result → Option (BitVec 48)
  | .encode p => some (payloadBits p)
  | .feed _ => none
  | .check _ => none
  | .extract _ => none
  | .decode _ => none
  | .rx _ => none
  | .reset => none

/-- The decoded event (R231): an RX result with `emitted = 1` and `status = OK`, and no other result. -/
def decodedEvent : Result → Option SemanticState
  | .rx (some (_, .ok st)) => some st
  | .rx (some (_, .error _)) => none
  | .rx none => none
  | .feed _ => none
  | .check _ => none
  | .extract _ => none
  | .decode _ => none
  | .encode _ => none
  | .reset => none

/-- Whether a result reports E1 (R241): DECODE's or RX's decoding failed. -/
def reportsMismatch (r : Result) : Bool := statusField r == some 1

/-- The events of one result (R248). DESIGN CHOICE (log entry 12): where one RX has two, the emission stands first. -/
def eventsOf (r : Result) : List Event :=
  ((emittedFrame r).map Event.frameEmitted).toList ++ ((decodedEvent r).map Event.frameDecoded).toList
    ++ (if reportsMismatch r then [Event.checksumMismatch] else [])

end Sys2Proof.Machine
end

