-- ==== Sys2Proof/Machine/Ops.lean ====
section
/-! DEFINITION. The named operations over the state, which every meaning is built from: the configuration check,
returning a result, taking one byte into the reassembler, and clearing the reassembler.
TAKING AN EXCEPTION is none of them: the block never traps, saves no state, takes no vector and changes no mode, and
an error is a result value (R240); nothing returns from an exception either (R249). So an error goes through
`State.report` like every other result. -/

namespace Sys2Proof.Machine

/-- No operation of an instance with an ill-formed configuration has a meaning: refusal BadConfig (R9, R245). -/
def whenConfigured (s : State) (o : Outcome) : Outcome := if wellFormedCfg s.cfg then o else .refused .badConfig

/-- The operation returns `r`: it joins the observation, and nothing else changes (R15, R35). -/
def State.report (s : State) (r : Result) : State := { s with results := s.results ++ [r] }

/-- An operation that only returns a result: a pure function of its operands and `cfg` (R68). -/
def replyWith (r : Result) (s : State) : Outcome := whenConfigured s (.next (s.report r))

/-- The buffer once FEED has written its byte at the cursor (R140). -/
def State.filledBuf (s : State) (b : Byte) : Frame := s.buf.set s.cursor.val b s.cursor.isLt

/-- The state effects of FEED (R140): the byte is written, and the cursor goes up by one, or back to 0 from 19. -/
def State.afterFeed (s : State) (b : Byte) : State :=
  { s with buf := s.filledBuf b, cursor := if s.cursor = 19 then 0 else s.cursor + 1 }

/-- The frame FEED emits (R140): at cursor 19, all twenty bytes, read after the write; a copy (R144, R76). There is
no check of the bytes and no search for a boundary (R142). -/
def State.emission (s : State) (b : Byte) : Option Frame := if s.cursor = 19 then some (s.filledBuf b) else none

/-- The state effects of RESET (R143): the cursor is 0 and the contents of `buf` become unspecified, so that every
byte of it is a fresh free value (log entry 4). `cfg` stays. -/
def State.clearReassembler (s : State) : State :=
  { s with
    cursor := 0
    buf := Vector.ofFn fun i : Fin 20 => Config.freeByte (s.freeCount + i.val)
    freeCount := s.freeCount + 20 }

end Sys2Proof.Machine
end

