-- ==== Sys2Proof/Machine/CommandEncoder.lean ====
section
/-! DEFINITION. The command encoder, ENCODE (42_encoder.md). -/

namespace Sys2Proof.Machine

/-- `powerByte` (R200): off for no mode or mode OFF, otherwise on. -/
def powerByte (cfg : Cfg) (d : DesiredState) : Byte :=
  if d.modeReq = .noRequest ∨ d.modeReq = .want .off then powerCode cfg .off else powerCode cfg .on

/-- `modeByte` (R201): an unspecified request is Auto. The reserved value never gets here (R206). -/
def modeByte (cfg : Cfg) (d : DesiredState) : Byte :=
  match d.modeReq with
  | .want m => modeCode cfg m
  | .noRequest => modeCode cfg .auto
  | .reserved7 => modeCode cfg .auto

/-- `tempByte` (R202): absent is 0x00; a present request is clamped to 16..30 degrees, then truncated. -/
def tempByte (d : DesiredState) : Byte :=
  if d.tempPresent then
    if targetTemp256 d < tempMin * 256 then BitVec.ofInt 8 tempMin
    else if targetTemp256 d > tempMax * 256 then BitVec.ofInt 8 tempMax
    else BitVec.ofInt 8 (targetTemp256 d / 256)
  else tempAbsentByte

/-- `fanByte` (R203): an absent request is Auto; QUIET keeps its own code. Reserved values never get here (R206). -/
def fanByte (cfg : Cfg) (d : DesiredState) : Byte :=
  match d.fanReq with
  | .want f => fanCode cfg f
  | .noRequest => fanCode cfg .auto
  | .reserved6 => fanCode cfg .auto
  | .reserved7 => fanCode cfg .auto

/-- `vflowByte` (R204): Position1 unless a vertical swing was requested. -/
def vflowByte (cfg : Cfg) (d : DesiredState) : Byte := vflowCode cfg (if d.vswing then .swing else .pos1)

/-- `hflowByte` (R205): Position1 unless a horizontal swing was requested. -/
def hflowByte (cfg : Cfg) (d : DesiredState) : Byte := hflowCode cfg (if d.hswing then .swing else .pos1)

/-- The six bytes of ENCODE, and no checksum (R206, R94). -/
def encodePayload (cfg : Cfg) (d : DesiredState) : Payload :=
  payloadOf (powerByte cfg d) (modeByte cfg d) (tempByte d) (fanByte cfg d) (vflowByte cfg d) (hflowByte cfg d)

/-- The reserved DesiredState values (R106). -/
def hasReservedValue (d : DesiredState) : Bool :=
  d.modeReq == .reserved7 || d.fanReq == .reserved6 || d.fanReq == .reserved7

/-- ENCODE (R206). -/
def execEncode (d : DesiredState) (s : State) : Outcome :=
  whenConfigured s
    (if hasReservedValue d then .refused .reservedValue else .next (s.report (.encode (encodePayload s.cfg d))))

end Sys2Proof.Machine
end

