-- ==== Sys2Proof/Machine/FrameDecoder.lean ====
section
/-! DEFINITION. The checksum validator and the field extractor: CHECK, EXTRACT and DECODE (41_decoder.md). All three
read only their operand and `cfg`. -/

namespace Sys2Proof.Machine

/-- The fields of a frame (R168): each from its own byte through its own table, with the default of its rule (power
OFF R162, mode OFF R163, fan AUTO R164, both airflows POS1 R165 and R166); no field is reconciled with another. -/
def extractFields (cfg : Cfg) (f : Frame) : SemanticState where
  power := (lookupPower cfg (framePower f)).getD .off
  curTemp := frameCurTemp f
  mode := (lookupMode cfg (frameMode f)).getD .off
  fan := (lookupFan cfg (frameFan f)).getD .auto
  vflow := (lookupVflow cfg (frameVflow f)).getD .pos1
  hflow := (lookupHflow cfg (frameHflow f)).getD .pos1
  unk := unknownFlags cfg f

/-- DECODE's function (R169): the checksum first, and the fields only of a valid frame (R247). -/
def decodeFrame (cfg : Cfg) (f : Frame) : Except FrameError SemanticState :=
  if frameValid f then .ok (extractFields cfg f) else .error .checksumMismatch

/-- CHECK (R161). -/
def execCheck (f : Frame) (s : State) : Outcome := replyWith (.check (frameValid f)) s

/-- EXTRACT (R168). -/
def execExtract (f : Frame) (s : State) : Outcome := replyWith (.extract (extractFields s.cfg f)) s

/-- DECODE (R169). -/
def execDecode (f : Frame) (s : State) : Outcome := replyWith (.decode (decodeFrame s.cfg f)) s

end Sys2Proof.Machine
end

