-- ==== Sys2Proof/Machine/Reassembler.lean ====
section
/-! DEFINITION. The frame reassembler's operations, FEED and RESET (40_reassembler.md). -/

namespace Sys2Proof.Machine

/-- FEED (R140). -/
def execFeed (b : Byte) (s : State) : Outcome :=
  whenConfigured s (.next ((s.afterFeed b).report (.feed (s.emission b))))

/-- RESET (R143). -/
def execReset (s : State) : Outcome := whenConfigured s (.next (s.clearReassembler.report .reset))

end Sys2Proof.Machine
end

