-- ==== Sys2Proof/Machine/ReceivePath.lean ====
section
/-! DEFINITION. The receive path, RX (43_receive_path.md). -/

namespace Sys2Proof.Machine

/-- RX (R230): FEED's state effects, and DECODE's function on the frame it emits, if it emits one. -/
def execRx (b : Byte) (s : State) : Outcome :=
  whenConfigured s
    (.next ((s.afterFeed b).report (.rx ((s.emission b).map fun f => (f, decodeFrame s.cfg f)))))

end Sys2Proof.Machine
end

