-- ==== Sys2Proof/Machine/Dispatch.lean ====
section
/-! DEFINITION. One arm per operation. -/

namespace Sys2Proof.Machine

def exec (i : Instr) (s : State) : Host.Outcome State Fault Refusal :=
  match i with
  | .feed b => Sys2Proof.Machine.execFeed b s
  | .check f => Sys2Proof.Machine.execCheck f s
  | .extract f => Sys2Proof.Machine.execExtract f s
  | .decode f => Sys2Proof.Machine.execDecode f s
  | .encode d => Sys2Proof.Machine.execEncode d s
  | .rx b => Sys2Proof.Machine.execRx b s
  | .reset => Sys2Proof.Machine.execReset s

end Sys2Proof.Machine
end

