-- ==== Sys2Proof/Machine/Step.lean ====
section
/-! DEFINITION. One step of an instance. The block fetches nothing and runs no program (R34, R74): the host issues
one operation at a time, and a step takes the oldest request it has issued (log entry 1) and does it whole (R67). -/

namespace Sys2Proof.Machine

/-- The refusal of a request that is no operation (R103). -/
def refusalOf : DecodeError → Refusal
  | .reservedOp => .reservedOp
  | .badOperand => .badOperand

/-- One step. With no request issued the block is idle and its state persists unchanged (R255, log entry 2). A refused
request makes no step (R14, R245); that the requests after it are then not reached is the model's choice (log entry
17). -/
def step (s : State) : Host.Outcome State Fault Refusal :=
  match s.requests with
  | [] => .next s
  | r :: rest =>
    match decode r with
    | .ok i => exec i { s with requests := rest }
    | .error e => .refused (refusalOf e)

/-- `s` with the request that a word of the opcode table's numbering stands for issued next: `step` takes exactly it
(log entry 1: this stands for the host issuing an operation). -/
def State.withFetchWord (s : State) (nbits w : Nat) : State :=
  { s with requests := Request.ofTableWord nbits w :: s.requests }

end Sys2Proof.Machine
end

