-- ==== Sys2Proof/Machine/Asm.lean ====
section
/-! DEFINITION. The textual syntax of R112 and its pseudo-instructions (R113), as a function from a program's
characters to the operations it stands for; none is an assembly error. It runs on the host's side, not in the block.
The reading of what R112 leaves to common sense (spaces, letter case, empty lines) is log entry 13. -/

namespace Sys2Proof.Machine.Asm

/-- The tokens of a line. -/
inductive Token where
  | word (cs : List Char)
  | lbracket
  | rbracket
  | comma
  | equals
  deriving DecidableEq, Repr

/-- A word collected backwards, put before the tokens that follow it. -/
def closeWord (acc : List Char) (ts : List Token) : List Token :=
  match acc with
  | [] => ts
  | _ :: _ => .word acc.reverse :: ts

/-- The tokens of one line; text after `;` is a comment (R112). -/
def tokens (acc : List Char) : List Char → List Token
  | [] => closeWord acc []
  | c :: cs =>
    if c = ';' then closeWord acc []
    else if c = ' ' ∨ c = '\t' ∨ c = '\r' then closeWord acc (tokens [] cs)
    else if c = '[' then closeWord acc (.lbracket :: tokens [] cs)
    else if c = ']' then closeWord acc (.rbracket :: tokens [] cs)
    else if c = ',' then closeWord acc (.comma :: tokens [] cs)
    else if c = '=' then closeWord acc (.equals :: tokens [] cs)
    else tokens (c :: acc) cs

/-- The value of a digit, decimal or hexadecimal. -/
def digitValue (c : Char) : Option Nat :=
  let n := c.toNat
  if 48 ≤ n ∧ n ≤ 57 then some (n - 48)
  else if 97 ≤ n ∧ n ≤ 102 then some (n - 87)
  else if 65 ≤ n ∧ n ≤ 70 then some (n - 55)
  else none

/-- The digits of a number, most significant first, after those already read. -/
def digitsFrom (base : Nat) (sofar : Nat) : List Char → Option Nat
  | [] => some sofar
  | c :: cs =>
    match digitValue c with
    | none => none
    | some d => if d < base then digitsFrom base (sofar * base + d) cs else none

/-- A number of at least one digit. -/
def number (base : Nat) (cs : List Char) : Option Nat := if cs = [] then none else digitsFrom base 0 cs

/-- A `0x` literal (R12). -/
def hexLiteral : List Char → Option Nat
  | '0' :: 'x' :: cs => number 16 cs
  | _ => none

/-- `<byte>`: a decimal or `0x` literal in 0..255 (R112). -/
def byteLiteral (cs : List Char) : Option Byte :=
  match (hexLiteral cs).or (number 10 cs) with
  | none => none
  | some n => if n < 256 then some (BitVec.ofNat 8 n) else none

/-- One or more words separated by commas, and the tokens after them. -/
def commaWords : List Token → Option (List (List Char) × List Token)
  | .word w :: .comma :: ts => (commaWords ts).map fun r => (w :: r.1, r.2)
  | .word w :: ts => some ([w], ts)
  | _ => none

/-- Every byte literal of a list, or none if one is no literal. -/
def byteLiterals : List (List Char) → Option (List Byte)
  | [] => some []
  | w :: ws =>
    match byteLiteral w, byteLiterals ws with
    | some b, some bs => some (b :: bs)
    | _, _ => none

/-- A byte list that ends the line, the operand of FEEDS and RXS (R113). -/
def byteList (ts : List Token) : Option (List Byte) :=
  match commaWords ts with
  | some (ws, []) => byteLiterals ws
  | _ => none

/-- Twenty bytes as a frame. -/
def frameOfList (bs : List Byte) : Option Frame :=
  if h : bs.length = 20 then some ⟨bs.toArray, by simpa using h⟩ else none

/-- The elements of a frame: a twentieth `CK` stands for the sum of the first nineteen mod 256 (R112). -/
def frameOfWords (ws : List (List Char)) : Option Frame :=
  if ws.length = 20 ∧ ws.getLast? = some "CK".toList then
    match byteLiterals (ws.take 19) with
    | none => none
    | some bs => (frameOfList (bs ++ [0])).bind fun f => frameOfList (bs ++ [checksum f])
  else (byteLiterals ws).bind frameOfList

/-- `<frame>`, ending the line: `[`, twenty elements separated by commas, `]` (R112). -/
def frameOperand : List Token → Option Frame
  | .lbracket :: ts =>
    match commaWords ts with
    | some (ws, [.rbracket]) => frameOfWords ws
    | _ => none
  | _ => none

/-- A decimal number's sign, and its digits. -/
def splitSign : List Char → Bool × List Char
  | '-' :: cs => (true, cs)
  | '+' :: cs => (false, cs)
  | cs => (false, cs)

/-- A decimal number's whole digits and, after a point, its fraction digits. -/
def splitPoint : List Char → List Char × Option (List Char)
  | [] => ([], none)
  | c :: cs => if c = '.' then ([], some cs) else let r := splitPoint cs; (c :: r.1, r.2)

/-- The digits of the fraction: none at all, or at least one after the point. -/
def fractionDigits : Option (List Char) → Option (List Char)
  | none => some []
  | some fs => if fs = [] then none else some fs

/-- `<degrees>`: a decimal number, optionally signed and optionally with a fraction, whose value times 256 is an
integer in -32768..32767; that integer (R112). -/
def degrees (cs : List Char) : Option Int :=
  let (neg, body) := splitSign cs
  let (whole, fraction) := splitPoint body
  match number 10 whole, fractionDigits fraction with
  | some _, some fs =>
    match number 10 (whole ++ fs) with
    | none => none
    | some n =>
      let scale := 10 ^ fs.length
      if n * 256 % scale = 0 then
        let q : Int := (n * 256 / scale : Nat)
        let v := if neg then -q else q
        if -32768 ≤ v ∧ v ≤ 32767 then some v else none
      else none
  | _, _ => none

/-- The value of `temp`: `temp_present` and `temp_q88` (R112). -/
def tempValue (cs : List Char) : Option (Bool × BitVec 16) :=
  if cs = "none".toList then some (false, 0)
  else match hexLiteral cs with
    | some n => if n < 65536 then some (true, BitVec.ofNat 16 n) else none
    | none => (degrees cs).map fun v => (true, BitVec.ofInt 16 v)

/-- The value of `mode` (R112). -/
def modeValue (cs : List Char) : Option ModeReq :=
  if cs = "NONE".toList then some .noRequest
  else if cs = "OFF".toList then some (.want .off)
  else if cs = "AUTO".toList then some (.want .auto)
  else if cs = "COOL".toList then some (.want .cool)
  else if cs = "DRY".toList then some (.want .dry)
  else if cs = "FAN".toList then some (.want .fan)
  else if cs = "HEAT".toList then some (.want .heat)
  else none

/-- The value of `fan` (R112). -/
def fanValue (cs : List Char) : Option FanReq :=
  if cs = "NONE".toList then some .noRequest
  else if cs = "AUTO".toList then some (.want .auto)
  else if cs = "QUIET".toList then some (.want .quiet)
  else if cs = "LOW".toList then some (.want .low)
  else if cs = "MEDIUM".toList then some (.want .medium)
  else if cs = "HIGH".toList then some (.want .high)
  else none

/-- The value of a swing bit (R112). -/
def swingValue (cs : List Char) : Option Bool :=
  if cs = ['0'] then some false else if cs = ['1'] then some true else none

/-- An optional `key=value` at the head of the tokens: its value (the absent value when it is omitted, R112) and the
tokens after it. -/
def optionalKey {α : Type} (key : String) (value : List Char → Option α) (absent : α) (ts : List Token) :
    Option (α × List Token) :=
  match ts with
  | .word k :: .equals :: .word v :: rest =>
    if k = key.toList then (value v).map fun a => (a, rest) else some (absent, ts)
  | _ => some (absent, ts)

/-- ENCODE's keys, in the order of R112's grammar, each of them optional. -/
def desiredState (ts : List Token) : Option DesiredState :=
  (optionalKey "mode" modeValue .noRequest ts).bind fun (m, ts) =>
  (optionalKey "temp" tempValue (false, 0) ts).bind fun (t, ts) =>
  (optionalKey "fan" fanValue .noRequest ts).bind fun (f, ts) =>
  (optionalKey "vswing" swingValue false ts).bind fun (v, ts) =>
  (optionalKey "hswing" swingValue false ts).bind fun (h, ts) =>
  if ts = [] then some ⟨m, f, v, h, t.1, t.2⟩ else none

/-- One byte that ends the line. -/
def byteOperand : List Token → Option Byte
  | [.word w] => byteLiteral w
  | _ => none

/-- The operations a mnemonic with its operand tokens stands for (R112); a pseudo-instruction stands for one
operation per byte, in order (R113). -/
def statement (mnemonic : List Char) (ts : List Token) : Option (List Instr) :=
  if mnemonic = "FEED".toList then (byteOperand ts).map fun b => [.feed b]
  else if mnemonic = "RX".toList then (byteOperand ts).map fun b => [.rx b]
  else if mnemonic = "CHECK".toList then (frameOperand ts).map fun f => [.check f]
  else if mnemonic = "EXTRACT".toList then (frameOperand ts).map fun f => [.extract f]
  else if mnemonic = "DECODE".toList then (frameOperand ts).map fun f => [.decode f]
  else if mnemonic = "ENCODE".toList then (desiredState ts).map fun d => [.encode d]
  else if mnemonic = "RESET".toList then if ts = [] then some [.reset] else none
  else if mnemonic = "FEEDS".toList then (byteList ts).map fun bs => bs.map .feed
  else if mnemonic = "RXS".toList then (byteList ts).map fun bs => bs.map .rx
  else if mnemonic = "FEEDFRAME".toList then (frameOperand ts).map fun f => f.toList.map .feed
  else if mnemonic = "RXFRAME".toList then (frameOperand ts).map fun f => f.toList.map .rx
  else none

/-- One line: at most one statement, then perhaps a comment (R112). -/
def line (cs : List Char) : Option (List Instr) :=
  match tokens [] cs with
  | [] => some []
  | .word m :: ts => statement m ts
  | _ => none

/-- The lines of a text. -/
def lines (acc : List Char) : List Char → List (List Char)
  | [] => [acc.reverse]
  | c :: cs => if c = '\n' then acc.reverse :: lines [] cs else lines (c :: acc) cs

/-- The operations of every line, in order, or none if a line is an error. -/
def allLines : List (List Char) → Option (List Instr)
  | [] => some []
  | l :: ls =>
    match line l, allLines ls with
    | some is, some rest => some (is ++ rest)
    | _, _ => none

/-- The operations a program's text stands for (R112, R113). -/
def program (text : String) : Option (List Instr) := allLines (lines [] text.toList)

end Sys2Proof.Machine.Asm
end

