-- ==== Sys2Proof/Machine/Platform.lean ====
section
/-! DEFINITION. Several instances side by side (R11, R253): each with its own state, and nothing shared. Operations on
different instances have no order between them, so which instance steps is the caller's choice, an argument. -/

namespace Sys2Proof.Machine

/-- A platform: its instances, in a list. -/
structure Platform where
  blocks : List State
  deriving DecidableEq, Repr

/-- One step of instance `k`: none where there is no such instance, or where its request is refused (no step:
R245, log entry 17). -/
def Platform.stepAt (p : Platform) (k : Nat) : Option Platform :=
  match p.blocks[k]? with
  | none => none
  | some s =>
    match step s with
    | .next t => some ⟨p.blocks.set k t⟩
    | .fault _ => none
    | .refused _ => none

end Sys2Proof.Machine
end

