-- ==== Sys2Proof/Safety.lean ====
section
/-! DEFINITION. The words claims are stated in: runs and their observation (R15), a host that issues operations,
frames laid end to end as a byte stream (R61, R256), and the legal record of results. A safe run is one that no
request of it is refused (R245); it cannot fault (R246). -/

namespace Sys2Proof

open Sys2Proof.Machine

/-- What an operation ends in does not fault and is not refused. -/
def Completes (o : Outcome) : Prop := ∃ t, o = .next t

/-- `n` steps of an instance (R15): the host's run of the machine. A refusal makes no step and marks the run (R14,
R245). DESIGN CHOICE: the run ends there and the operations issued after the refused request are not done; the spec does
not say whether they are (log entry 17, safe). -/
def runFor (n : Nat) (s : State) : Outcome := Host.Core.run core n s

/-- Operation `i` returns `r` and changes nothing else of the state: not `buf`, not the cursor, not `cfg`, not the
requests still waiting. -/
def Returns (i : Instr) (s : State) (r : Result) : Prop := exec i s = .next { s with results := s.results ++ [r] }

/-- The byte an operation takes into the reassembler: FEED's and RX's (R68, R73). -/
def byteTaken : Instr → Option Byte
  | .feed b => some b
  | .rx b => some b
  | .check _ => none
  | .extract _ => none
  | .decode _ => none
  | .encode _ => none
  | .reset => none

/-- The operations are FEEDs and RXs of the bytes `bs`, in any mixture, in order (R230). -/
def TakeBytes (is : List Instr) (bs : List Byte) : Prop := is.map byteTaken = bs.map some

/-- `s` with the host's requests for the operations `is` issued after those already there. -/
def issue (s : State) (is : List Instr) : State := { s with requests := s.requests ++ is.map encode }

/-- What a run shows (R15): the results and the final cursor. No bytes of `buf` (R39). -/
structure Observation where
  results : List Result
  cursor : Fin 20
  deriving DecidableEq, Repr

/-- The observation of a state (R15). -/
def observe (s : State) : Observation := ⟨s.results, s.cursor⟩

/-- Two outcomes that no one can tell apart: the same observation, or the same refusal, which ends a run (log entry 17). -/
def SameObserved : Outcome → Outcome → Prop
  | .next s, .next t => observe s = observe t
  | .refused a, .refused b => a = b
  | _, _ => False

/-- The frames emitted in a list of results, oldest first (R248). -/
def emittedFrames (rs : List Result) : List Frame := rs.filterMap emittedFrame

/-- The decoded events in a list of results, oldest first (R231). -/
def decodedEvents (rs : List Result) : List SemanticState := rs.filterMap decodedEvent

/-- Frames laid end to end as the byte stream that carries them (R61). -/
def streamOf (fs : List Frame) : List Byte := fs.flatMap Vector.toList

/-- A byte stream cut into frames of 20 bytes from its start, a shorter rest left out, with at most `fuel` frames. -/
def cutFrames : Nat → List Byte → List Frame
  | 0, _ => []
  | fuel + 1, bs =>
    if h : (bs.take 20).length = 20 then ⟨(bs.take 20).toArray, by simpa using h⟩ :: cutFrames fuel (bs.drop 20)
    else []

/-- The wrapping of a payload into a frame that the round-trip law speaks of (R208, D30 of 92_eei_decisions.md):
each payload byte at the frame byte of the same field, the bytes of `r` elsewhere, and a correct checksum. -/
def wrap (p : Payload) (r : Frame) : Frame :=
  let f := (((((r.set 5 p[0]).set 6 p[2]).set 7 p[1]).set 8 p[3]).set 9 p[4]).set 10 p[5]
  f.set 19 (checksum f)

/-- How many bytes have been taken since the last RESET, or since power-on, by a list of results that follow `n`
bytes already taken: FEED and RX take one each. -/
def bytesTaken (n : Nat) : List Result → Nat
  | [] => n
  | .feed _ :: rs => bytesTaken (n + 1) rs
  | .rx _ :: rs => bytesTaken (n + 1) rs
  | .reset :: rs => bytesTaken 0 rs
  | .check _ :: rs => bytesTaken n rs
  | .extract _ :: rs => bytesTaken n rs
  | .decode _ :: rs => bytesTaken n rs
  | .encode _ :: rs => bytesTaken n rs

/-- In a list of results that follow `n` bytes already taken, a frame was emitted by exactly the bytes that
complete one: every twentieth since the last RESET (R140, R141). -/
def EmitsOnBoundaries (n : Nat) : List Result → Prop
  | [] => True
  | .feed o :: rs => (o.isSome = true ↔ (n + 1) % 20 = 0) ∧ EmitsOnBoundaries (n + 1) rs
  | .rx o :: rs => (o.isSome = true ↔ (n + 1) % 20 = 0) ∧ EmitsOnBoundaries (n + 1) rs
  | .reset :: rs => EmitsOnBoundaries 0 rs
  | .check _ :: rs => EmitsOnBoundaries n rs
  | .extract _ :: rs => EmitsOnBoundaries n rs
  | .decode _ :: rs => EmitsOnBoundaries n rs
  | .encode _ :: rs => EmitsOnBoundaries n rs

/-- A record EXTRACT can produce: its fan speed is never QUIET (R98, R107). -/
def LegalRecord (st : SemanticState) : Prop := st.fan ≠ .quiet

/-- A result the block can return: a decoded record is legal, a payload's temperature byte is 0 or in 16..30 and its
airflow bytes are Position1 or Swing codes, and RX decodes exactly the valid frames. -/
def LegalResult (cfg : Cfg) : Result → Prop
  | .feed _ => True
  | .check _ => True
  | .extract st => LegalRecord st
  | .decode (.ok st) => LegalRecord st
  | .decode (.error _) => True
  | .encode p => (p[2] = 0 ∨ (16 ≤ p[2].toNat ∧ p[2].toNat ≤ 30)) ∧
      (p[4] = 0x01 ∨ p[4] = 0x20) ∧ (p[5] = 0x01 ∨ p[5] = cfg.hflowSwing)
  | .rx none => True
  | .rx (some (f, .ok st)) => f[19].toNat = sumSlice f 0 19 % 256 ∧ LegalRecord st
  | .rx (some (f, .error _)) => f[19].toNat ≠ sumSlice f 0 19 % 256
  | .reset => True

/-- The invariant of an instance: the cursor counts the bytes taken since the last RESET modulo 20, frames were
emitted on exactly the boundaries, and every result returned is one the block can return. -/
def ConsistentRecord (s : State) : Prop :=
  s.cursor.val = bytesTaken 0 s.results % 20 ∧ EmitsOnBoundaries 0 s.results ∧
    ∀ r ∈ s.results, LegalResult s.cfg r

end Sys2Proof
end

