-- ==== Sys2Proof/Certificates/Slice0/Obligations.lean ====
section
/-! DEFINITION. The statements about the model, for the provers. Each docstring names the rules of spec/ the statement
formalises. A statement holds for every configuration it names as well formed, never for one only. That results are
kept in a list is log entry 3, that the host's requests are, log entry 1: the statements speak in these terms. -/

open Sys2Proof Sys2Proof.Machine

/-! ### Reset and the step -/

/-- R143, R270, R40: power-on and RESET leave the cursor at 0 and `cfg` unchanged; `buf` is not spoken of. -/
def Obligations.PowerOnAndResetLeaveTheCursorAtZero : Prop :=
  (∀ cfg, (State.powerOn cfg).cursor = 0 ∧ (State.powerOn cfg).cfg = cfg) ∧
  (∃ cfg, State.reset = State.powerOn cfg) ∧
  ∀ s, wellFormedCfg s.cfg → ∃ t, exec .reset s = .next t ∧ t.cursor = 0 ∧ t.cfg = s.cfg

/-- RESET's frame (R143, R40): beside the cursor, `buf`, which is unspecified, and the free-value counter
`freeCount`, which `buf`'s free bytes advance (the model's own field, log entry 4), RESET changes only the record. That
it leaves a mark without fields there is the model's choice (log entry 3). -/
def Obligations.ResetChangesNothingElse : Prop :=
  ∀ s t, exec .reset s = .next t →
    t.cfg = s.cfg ∧ t.requests = s.requests ∧ t.results = s.results ++ [.reset] ∧
    emittedFrames t.results = emittedFrames s.results

/-- R71, R67: a step does the oldest request issued, whole, on the state the earlier operations left. -/
def Obligations.StepDoesTheOldestRequest : Prop :=
  ∀ s r rest i, s.requests = r :: rest → decode r = .ok i → step s = exec i { s with requests := rest }

/-- R255: with no request issued the state persists unchanged (the model's reading: log entry 2). -/
def Obligations.IdleStepChangesNothing : Prop :=
  ∀ s, s.requests = [] → step s = .next s

/-- The word of the opcode table issued as the next request is done by the next step (log entries 1 and 9). -/
def Obligations.TableWordRunsNext : Prop :=
  ∀ s nbits w i, decodeTableWord nbits w = some i → step (s.withFetchWord nbits w) = exec i s

/-- R103: `op = 0b111` is refused ReservedOp, whatever its operand (VX1); an operand of the wrong width is refused
BadOperand. That these come before R9's BadConfig on an ill-formed `cfg` is the model's choice (log entry 8). -/
def Obligations.ReservedSelectAndWrongWidthAreRefused : Prop :=
  ∀ s r rest, s.requests = r :: rest →
    (r.op = 0b111 → step s = .refused .reservedOp) ∧
    (r.op = 0b000 ∨ r.op = 0b101 → r.width ≠ 8 → step s = .refused .badOperand) ∧
    (r.op = 0b001 ∨ r.op = 0b010 ∨ r.op = 0b011 → r.width ≠ 160 → step s = .refused .badOperand) ∧
    (r.op = 0b100 → r.width ≠ 25 → step s = .refused .badOperand) ∧
    (r.op = 0b110 → r.width ≠ 0 → step s = .refused .badOperand)

/-- R106: a DesiredState with `mode_req = 7`, or `fan_req = 6` or `7`, is refused; every other 25-bit value is
legal, so ENCODE of it returns a payload. -/
def Obligations.ReservedDesiredStateIsRefused : Prop :=
  ∀ s rest (v : BitVec 25), wellFormedCfg s.cfg → s.requests = ⟨0b100, 25, v⟩ :: rest →
    (v.toNat % 8 = 7 ∨ v.toNat / 8 % 8 = 6 ∨ v.toNat / 8 % 8 = 7 → step s = .refused .reservedValue) ∧
    (v.toNat % 8 ≠ 7 → v.toNat / 8 % 8 < 6 →
      ∃ p, step s = .next { s with requests := rest, results := s.results ++ [.encode p] })

/-- R9: with two equal codes in a table, or MODE_AUTO, MODE_DRY or MODE_FAN at 0xFF, every operation is refused
BadConfig; with neither, none is. -/
def Obligations.IllFormedConfigurationIsRefused : Prop :=
  ∀ s, ((0x01 ≠ s.cfg.powerOff ∧
        ([0x01, 0x04, s.cfg.modeAuto, s.cfg.modeDry, s.cfg.modeFan, s.cfg.modeOff] : List Byte).Nodup ∧
        ([0x0B, 0x08, s.cfg.fanAuto, s.cfg.fanQuiet, s.cfg.fanLow] : List Byte).Nodup ∧
        ([0x01, s.cfg.vflowPos2, s.cfg.vflowPos3, s.cfg.vflowPos4, s.cfg.vflowPos5, s.cfg.vflowPos6,
          0x20] : List Byte).Nodup ∧
        ([0x01, s.cfg.hflowPos2, s.cfg.hflowPos3, s.cfg.hflowPos4, s.cfg.hflowPos5, s.cfg.hflowPos6,
          s.cfg.hflowSwing] : List Byte).Nodup ∧
        s.cfg.modeAuto ≠ 0xFF ∧ s.cfg.modeDry ≠ 0xFF ∧ s.cfg.modeFan ≠ 0xFF) →
      ∀ i, exec i s ≠ .refused .badConfig) ∧
    ((0x01 = s.cfg.powerOff ∨
        ¬ ([0x01, 0x04, s.cfg.modeAuto, s.cfg.modeDry, s.cfg.modeFan, s.cfg.modeOff] : List Byte).Nodup ∨
        ¬ ([0x0B, 0x08, s.cfg.fanAuto, s.cfg.fanQuiet, s.cfg.fanLow] : List Byte).Nodup ∨
        ¬ ([0x01, s.cfg.vflowPos2, s.cfg.vflowPos3, s.cfg.vflowPos4, s.cfg.vflowPos5, s.cfg.vflowPos6,
          0x20] : List Byte).Nodup ∨
        ¬ ([0x01, s.cfg.hflowPos2, s.cfg.hflowPos3, s.cfg.hflowPos4, s.cfg.hflowPos5, s.cfg.hflowPos6,
          s.cfg.hflowSwing] : List Byte).Nodup ∨
        s.cfg.modeAuto = 0xFF ∨ s.cfg.modeDry = 0xFF ∨ s.cfg.modeFan = 0xFF) →
      ∀ i, exec i s = .refused .badConfig)

/-! ### The reassembler -/

/-- R140: FEED writes its byte at the cursor and nothing else of `buf`; from a cursor below 19 the cursor goes up by
one and nothing is emitted, from 19 it goes back to 0 and the frame emitted is `buf`, read after the write. -/
def Obligations.FeedTakesOneByte : Prop :=
  ∀ s b, wellFormedCfg s.cfg → ∃ t, exec (.feed b) s = .next t ∧
    (∀ j : Fin 20, t.buf[j] = if j = s.cursor then b else s.buf[j]) ∧
    (s.cursor.val < 19 → t.cursor.val = s.cursor.val + 1 ∧ t.results = s.results ++ [.feed none]) ∧
    (s.cursor.val = 19 → t.cursor.val = 0 ∧ t.results = s.results ++ [.feed (some t.buf)]) ∧
    t.cfg = s.cfg ∧ t.requests = s.requests ∧ t.freeCount = s.freeCount

/-- R142: nothing resynchronises. What FEED and RX do to the cursor, and whether they emit, does not depend on the
bytes: not on those in `buf`, not on the byte taken, not on any checksum. -/
def Obligations.NothingResynchronises : Prop :=
  ∀ s s' i i' b b' t t', byteTaken i = some b → byteTaken i' = some b' → s.cursor = s'.cursor →
    exec i s = .next t → exec i' s' = .next t' →
    t.cursor = t'.cursor ∧
    ∃ r r', t.results = s.results ++ [r] ∧ t'.results = s'.results ++ [r'] ∧ emittedBit r = emittedBit r'

/-- R141: of `n` FEEDs and RXs from a cursor `c0`, exactly `(c0 + n) / 20` emit, those at the positions `k` with
`(c0 + k) % 20 = 0`, and the cursor ends at `(c0 + n) % 20`. -/
def Obligations.EmissionCountLaw : Prop :=
  ∀ s is bs, wellFormedCfg s.cfg → TakeBytes is bs → s.requests = is.map encode →
    ∃ t rs, runFor is.length s = .next t ∧ t.results = s.results ++ rs ∧ rs.length = is.length ∧
      (emittedFrames rs).length = (s.cursor.val + is.length) / 20 ∧
      (∀ k r, rs[k]? = some r → ((emittedFrame r).isSome = true ↔ (s.cursor.val + (k + 1)) % 20 = 0)) ∧
      t.cursor.val = (s.cursor.val + is.length) % 20

/-- R61: from cursor 0, the frames emitted are the byte stream cut into pieces of twenty, in order, and nothing
else; the rest of fewer than twenty bytes waits. -/
def Obligations.EmittedFramesAreTheStreamCut : Prop :=
  ∀ s is bs, wellFormedCfg s.cfg → s.cursor = 0 → TakeBytes is bs → s.requests = is.map encode →
    ∃ t, runFor is.length s = .next t ∧
      emittedFrames t.results = emittedFrames s.results ++ cutFrames bs.length bs ∧
      t.cursor.val = bs.length % 20

/-- R271: RESET discards a partial frame, whatever the cursor was; the next twenty bytes make the next frame. -/
def Obligations.ResetDiscardsAPartialFrame : Prop :=
  ∀ s (f : Frame), wellFormedCfg s.cfg → s.requests = (.reset :: f.toList.map .feed : List Instr).map encode →
    ∃ t, runFor 21 s = .next t ∧ t.cursor = 0 ∧
      t.results = s.results ++ [.reset] ++ List.replicate 19 (.feed none) ++ [.feed (some f)]

/-- R39: a byte of `buf` at the cursor or above it is never observed. Two instances that differ only in such bytes
show the same in every run. A run that is refused ends there and shows its refusal alone (the model's choice, log
entry 17). -/
def Obligations.UnfilledBufferBytesAreUnobservable : Prop :=
  ∀ s s' n, s.cfg = s'.cfg → s.cursor = s'.cursor → s.requests = s'.requests → s.results = s'.results →
    (∀ j : Fin 20, j < s.cursor → s.buf[j] = s'.buf[j]) →
    SameObserved (runFor n s) (runFor n s')

/-! ### The checksum validator -/

/-- R160, R161: CHECK returns whether byte 19 is the sum of bytes 0 to 18 mod 256, and changes nothing else. -/
def Obligations.CheckComparesWithTheSum : Prop :=
  ∀ s (f : Frame), wellFormedCfg s.cfg →
    Returns (.check f) s (.check (decide (f[19].toNat =
      (f[0].toNat + f[1].toNat + f[2].toNat + f[3].toNat + f[4].toNat + f[5].toNat + f[6].toNat + f[7].toNat
        + f[8].toNat + f[9].toNat + f[10].toNat + f[11].toNat + f[12].toNat + f[13].toNat + f[14].toNat + f[15].toNat
        + f[16].toNat + f[17].toNat + f[18].toNat) % 256)))

/-- R161 corner case (e): a frame that differs from a valid one in exactly one byte is invalid. -/
def Obligations.OneChangedByteInvalidates : Prop :=
  ∀ s (f : Frame) (i : Fin 20) b, Returns (.check f) s (.check true) → b ≠ f[i] →
    Returns (.check (f.set i.val b i.isLt)) s (.check false)

/-- R274, R161 corner case (e): two changes that cancel modulo 256 leave a valid frame valid. -/
def Obligations.CancellingChangesStayValid : Prop :=
  ∀ s (f : Frame) (i j : Fin 20) d, i.val < 19 → j.val < 19 → i ≠ j → Returns (.check f) s (.check true) →
    Returns (.check ((f.set i.val (f[i] + d) i.isLt).set j.val (f[j] - d) j.isLt)) s (.check true)

/-- R171: DECODE of a frame succeeds exactly when CHECK of it returns 1, exactly when byte 19 is the sum of bytes 0
to 18 mod 256. -/
def Obligations.ChecksumLaw : Prop :=
  ∀ s (f : Frame), wellFormedCfg s.cfg →
    ((∃ st, Returns (.decode f) s (.decode (.ok st))) ↔ Returns (.check f) s (.check true)) ∧
    (Returns (.check f) s (.check true) ↔ (f.toList.take 19).foldl (fun n b => (n + b.toNat) % 256) 0 = f[19].toNat)

/-! ### The field extractor -/

/-- R162: the power field of EXTRACT. -/
def Obligations.PowerLookup : Prop :=
  ∀ s (f : Frame), wellFormedCfg s.cfg → ∃ st, Returns (.extract f) s (.extract st) ∧
    (f[5] = 0x01 → st.power = .on ∧ st.unk.getLsbD 0 = false) ∧
    (f[5] = s.cfg.powerOff → st.power = .off ∧ st.unk.getLsbD 0 = false) ∧
    (f[5] ≠ 0x01 → f[5] ≠ s.cfg.powerOff → st.power = .off ∧ st.unk.getLsbD 0 = true)

/-- R163: the mode field of EXTRACT. -/
def Obligations.ModeLookup : Prop :=
  ∀ s (f : Frame), wellFormedCfg s.cfg → ∃ st, Returns (.extract f) s (.extract st) ∧
    (f[7] = 0x01 → st.mode = .cool ∧ st.unk.getLsbD 1 = false) ∧
    (f[7] = 0x04 → st.mode = .heat ∧ st.unk.getLsbD 1 = false) ∧
    (f[7] = s.cfg.modeAuto → st.mode = .auto ∧ st.unk.getLsbD 1 = false) ∧
    (f[7] = s.cfg.modeDry → st.mode = .dry ∧ st.unk.getLsbD 1 = false) ∧
    (f[7] = s.cfg.modeFan → st.mode = .fan ∧ st.unk.getLsbD 1 = false) ∧
    (f[7] = s.cfg.modeOff → st.mode = .off ∧ st.unk.getLsbD 1 = false) ∧
    (f[7] ∉ ([0x01, 0x04, s.cfg.modeAuto, s.cfg.modeDry, s.cfg.modeFan, s.cfg.modeOff] : List Byte) →
      st.mode = .off ∧ st.unk.getLsbD 1 = true)

/-- R164: the fan field of EXTRACT; QUIET's code gives LOW. -/
def Obligations.FanLookup : Prop :=
  ∀ s (f : Frame), wellFormedCfg s.cfg → ∃ st, Returns (.extract f) s (.extract st) ∧
    (f[8] = 0x0B → st.fan = .high ∧ st.unk.getLsbD 2 = false) ∧
    (f[8] = 0x08 → st.fan = .medium ∧ st.unk.getLsbD 2 = false) ∧
    (f[8] = s.cfg.fanAuto → st.fan = .auto ∧ st.unk.getLsbD 2 = false) ∧
    (f[8] = s.cfg.fanQuiet ∨ f[8] = s.cfg.fanLow → st.fan = .low ∧ st.unk.getLsbD 2 = false) ∧
    (f[8] ∉ ([0x0B, 0x08, s.cfg.fanAuto, s.cfg.fanQuiet, s.cfg.fanLow] : List Byte) →
      st.fan = .auto ∧ st.unk.getLsbD 2 = true)

/-- R165: the vertical-airflow field of EXTRACT. -/
def Obligations.VerticalAirflowLookup : Prop :=
  ∀ s (f : Frame), wellFormedCfg s.cfg → ∃ st, Returns (.extract f) s (.extract st) ∧
    (f[9] = 0x01 → st.vflow = .pos1 ∧ st.unk.getLsbD 3 = false) ∧
    (f[9] = s.cfg.vflowPos2 → st.vflow = .pos2 ∧ st.unk.getLsbD 3 = false) ∧
    (f[9] = s.cfg.vflowPos3 → st.vflow = .pos3 ∧ st.unk.getLsbD 3 = false) ∧
    (f[9] = s.cfg.vflowPos4 → st.vflow = .pos4 ∧ st.unk.getLsbD 3 = false) ∧
    (f[9] = s.cfg.vflowPos5 → st.vflow = .pos5 ∧ st.unk.getLsbD 3 = false) ∧
    (f[9] = s.cfg.vflowPos6 → st.vflow = .pos6 ∧ st.unk.getLsbD 3 = false) ∧
    (f[9] = 0x20 → st.vflow = .swing ∧ st.unk.getLsbD 3 = false) ∧
    (f[9] ∉ ([0x01, s.cfg.vflowPos2, s.cfg.vflowPos3, s.cfg.vflowPos4, s.cfg.vflowPos5, s.cfg.vflowPos6,
        0x20] : List Byte) →
      st.vflow = .pos1 ∧ st.unk.getLsbD 3 = true)

/-- R166: the horizontal-airflow field of EXTRACT; its swing code is a parameter of its own. -/
def Obligations.HorizontalAirflowLookup : Prop :=
  ∀ s (f : Frame), wellFormedCfg s.cfg → ∃ st, Returns (.extract f) s (.extract st) ∧
    (f[10] = 0x01 → st.hflow = .pos1 ∧ st.unk.getLsbD 4 = false) ∧
    (f[10] = s.cfg.hflowPos2 → st.hflow = .pos2 ∧ st.unk.getLsbD 4 = false) ∧
    (f[10] = s.cfg.hflowPos3 → st.hflow = .pos3 ∧ st.unk.getLsbD 4 = false) ∧
    (f[10] = s.cfg.hflowPos4 → st.hflow = .pos4 ∧ st.unk.getLsbD 4 = false) ∧
    (f[10] = s.cfg.hflowPos5 → st.hflow = .pos5 ∧ st.unk.getLsbD 4 = false) ∧
    (f[10] = s.cfg.hflowPos6 → st.hflow = .pos6 ∧ st.unk.getLsbD 4 = false) ∧
    (f[10] = s.cfg.hflowSwing → st.hflow = .swing ∧ st.unk.getLsbD 4 = false) ∧
    (f[10] ∉ ([0x01, s.cfg.hflowPos2, s.cfg.hflowPos3, s.cfg.hflowPos4, s.cfg.hflowPos5, s.cfg.hflowPos6,
        s.cfg.hflowSwing] : List Byte) →
      st.hflow = .pos1 ∧ st.unk.getLsbD 4 = true)

/-- R167, and R168's pseudocode and corner cases (a) and (b): `cur_temp` is byte 6 as it is, every other field and its
flag depend on their own byte alone, and no other byte of the frame matters. -/
def Obligations.EachFieldIsReadFromItsOwnByte : Prop :=
  ∀ s (f g : Frame), wellFormedCfg s.cfg → ∃ st st', Returns (.extract f) s (.extract st) ∧
    Returns (.extract g) s (.extract st') ∧ st.curTemp.toNat = f[6].toNat ∧
    (f[5] = g[5] → st.power = st'.power ∧ st.unk.getLsbD 0 = st'.unk.getLsbD 0) ∧
    (f[7] = g[7] → st.mode = st'.mode ∧ st.unk.getLsbD 1 = st'.unk.getLsbD 1) ∧
    (f[8] = g[8] → st.fan = st'.fan ∧ st.unk.getLsbD 2 = st'.unk.getLsbD 2) ∧
    (f[9] = g[9] → st.vflow = st'.vflow ∧ st.unk.getLsbD 3 = st'.unk.getLsbD 3) ∧
    (f[10] = g[10] → st.hflow = st'.hflow ∧ st.unk.getLsbD 4 = st'.unk.getLsbD 4) ∧
    ((∀ k : Fin 20, 5 ≤ k.val → k.val ≤ 10 → f[k] = g[k]) → st = st')

/-- R169: an invalid frame gives ChecksumMismatch and nothing else; a valid one gives EXTRACT's record. -/
def Obligations.DecodeChecksThenExtracts : Prop :=
  ∀ s (f : Frame), wellFormedCfg s.cfg →
    (f[19].toNat ≠ sumSlice f 0 19 % 256 → Returns (.decode f) s (.decode (.error .checksumMismatch))) ∧
    (f[19].toNat = sumSlice f 0 19 % 256 →
      ∃ st, Returns (.extract f) s (.extract st) ∧ Returns (.decode f) s (.decode (.ok st)))

/-- R174: a frame whose byte 7 is no mode code extracts to mode OFF with `unk[1] = 1`; if it is valid, DECODE is Ok
with mode OFF. 0xFF is such a byte unless MODE_OFF_CODE is 0xFF, and decodes to OFF even then. -/
def Obligations.UnknownModeFallsBackToOff : Prop :=
  ∀ s (f : Frame), wellFormedCfg s.cfg →
    (f[7] ∉ ([0x01, 0x04, s.cfg.modeAuto, s.cfg.modeDry, s.cfg.modeFan,
        s.cfg.modeOff] : List Byte) →
      ∃ st, Returns (.extract f) s (.extract st) ∧ st.mode = .off ∧ st.unk.getLsbD 1 = true ∧
        (f[19].toNat = sumSlice f 0 19 % 256 → Returns (.decode f) s (.decode (.ok st)))) ∧
    (f[7] = 0xFF → ∃ st, Returns (.extract f) s (.extract st) ∧ st.mode = .off ∧
      st.unk.getLsbD 1 = decide (s.cfg.modeOff ≠ 0xFF))

/-! ### The command encoder -/

/-- R200 to R206: the six bytes of ENCODE, for every DesiredState without a reserved value; nothing else changes. One
with a reserved value is refused. -/
def Obligations.EncodeBuildsTheSixBytes : Prop :=
  ∀ s d, wellFormedCfg s.cfg →
    (d.modeReq = .reserved7 ∨ d.fanReq = .reserved6 ∨ d.fanReq = .reserved7 →
      exec (.encode d) s = .refused .reservedValue) ∧
    (d.modeReq ≠ .reserved7 → d.fanReq ≠ .reserved6 → d.fanReq ≠ .reserved7 → ∃ p : Payload, Returns (.encode d) s (.encode p) ∧
      p[0] = (if d.modeReq = .noRequest ∨ d.modeReq = .want .off then s.cfg.powerOff else 0x01) ∧
      (d.modeReq = .noRequest ∨ d.modeReq = .want .auto → p[1] = s.cfg.modeAuto) ∧
      (d.modeReq = .want .off → p[1] = s.cfg.modeOff) ∧
      (d.modeReq = .want .cool → p[1] = 0x01) ∧
      (d.modeReq = .want .dry → p[1] = s.cfg.modeDry) ∧
      (d.modeReq = .want .fan → p[1] = s.cfg.modeFan) ∧
      (d.modeReq = .want .heat → p[1] = 0x04) ∧
      (d.tempPresent = false → p[2] = 0x00) ∧
      (d.tempPresent = true → d.tempQ88.toInt < 4096 → p[2] = 16) ∧
      (d.tempPresent = true → d.tempQ88.toInt > 7680 → p[2] = 30) ∧
      (d.tempPresent = true → 4096 ≤ d.tempQ88.toInt → d.tempQ88.toInt ≤ 7680 →
        p[2] = d.tempQ88.extractLsb' 8 8 ∧ (p[2].toNat : Int) = d.tempQ88.toInt / 256) ∧
      (d.fanReq = .noRequest ∨ d.fanReq = .want .auto → p[3] = s.cfg.fanAuto) ∧
      (d.fanReq = .want .quiet → p[3] = s.cfg.fanQuiet) ∧
      (d.fanReq = .want .low → p[3] = s.cfg.fanLow) ∧
      (d.fanReq = .want .medium → p[3] = 0x08) ∧
      (d.fanReq = .want .high → p[3] = 0x0B) ∧
      p[4] = (if d.vswing = true then 0x20 else 0x01) ∧
      p[5] = (if d.hswing = true then s.cfg.hflowSwing else 0x01))

/-- R207, and R202's remark: a present request always gives a byte in 16..30, and truncating first and clamping
second would give the same byte. 10 and 35 degrees give 16 and 30. -/
def Obligations.TemperatureClampLaw : Prop :=
  ∀ s d p, Returns (.encode d) s (.encode p) → d.tempPresent = true →
    16 ≤ p[2].toNat ∧ p[2].toNat ≤ 30 ∧
    (p[2].toNat : Int) = max 16 (min 30 (d.tempQ88.toInt / 256)) ∧
    (d.tempQ88 = 0x0A00 → p[2] = 16) ∧ (d.tempQ88 = 0x2300 → p[2] = 30)

/-- R208: what ENCODE encodes, wrapped into a frame with a correct checksum, DECODE gives back, on the value sets the
rule names. -/
def Obligations.RoundTripLaw : Prop :=
  ∀ s d m fs (r : Frame), wellFormedCfg s.cfg → d.modeReq = .want m → d.fanReq = .want fs → fs ≠ .quiet →
    ∃ p st, Returns (.encode d) s (.encode p) ∧ Returns (.decode (wrap p r)) s (.decode (.ok st)) ∧
      st.mode = m ∧ st.fan = fs ∧
      st.vflow = (if d.vswing = true then .swing else .pos1) ∧
      st.hflow = (if d.hswing = true then .swing else .pos1) ∧
      st.power = (if m = .off then .off else .on) ∧
      st.curTemp = p[2] ∧ st.unk = 0

/-! ### The receive path -/

/-- R230: RX does to the state what FEED does, and returns FEED's frame with DECODE's result of it. -/
def Obligations.RxIsFeedThenDecode : Prop :=
  ∀ s b, wellFormedCfg s.cfg → ∃ t, exec (.feed b) s = .next t ∧
    ((t.results = s.results ++ [.feed none] ∧
        exec (.rx b) s = .next { t with results := s.results ++ [.rx none] }) ∨
      ∃ f r, t.results = s.results ++ [.feed (some f)] ∧ Returns (.decode f) s (.decode r) ∧
        exec (.rx b) s = .next { t with results := s.results ++ [.rx (some (f, r))] })

/-- R231 under R256's premise: frames delivered whole and in order from cursor 0 are all emitted as they are, and
each valid one gives exactly one decoded event, with EXTRACT's record of it; no other event happens. -/
def Obligations.LosslessDeliveryDecodesEachValidFrame : Prop :=
  ∀ s (fs : List Frame), wellFormedCfg s.cfg → s.cursor = 0 →
    s.requests = ((streamOf fs).map .rx : List Instr).map encode →
    ∃ t, runFor (streamOf fs).length s = .next t ∧ t.cursor = 0 ∧
      emittedFrames t.results = emittedFrames s.results ++ fs ∧
      decodedEvents t.results = decodedEvents s.results ++
        (fs.filter fun f => f[19].toNat == sumSlice f 0 19 % 256).map (extractFields s.cfg)

/-! ### Encodings -/

/-- R102, R104, R105: decoding gives back every operation that was encoded, with every operand. -/
def Obligations.DecodeGivesBackWhatIsEncoded : Prop :=
  ∀ i, decode (encode i) = .ok i

/-- R102 to R105: each operation has one request only: what decodes to it is its encoding. -/
def Obligations.EachOperationHasOneRequest : Prop :=
  ∀ r i, decode r = .ok i → encode i = r

/-- R102, R104, R105: requests written out from the spec's encodings, decoded (a sanity statement). -/
def Obligations.WrittenRequestsDecode : Prop :=
  decode ⟨0b000, 8, 0x7E⟩ = .ok (.feed 0x7E) ∧
  decode ⟨0b101, 8, 0x25⟩ = .ok (.rx 0x25) ∧
  decode ⟨0b110, 0, 0⟩ = .ok .reset ∧
  decode ⟨0b001, 160, 0x02⟩ = .ok (.check #v[2, 0, 0, 0, 0, 0, 0, 0, 0, 0, 0, 0, 0, 0, 0, 0, 0, 0, 0, 0]) ∧
  decode ⟨0b100, 25, 0x300166⟩ = .ok (.encode ⟨.want .heat, .want .medium, true, false, true, 0x1800⟩)

/-- R105: the bit layout of a DesiredState. -/
def Obligations.DesiredStateBitLayout : Prop :=
  ∀ v : BitVec 25, ∃ d, decode ⟨0b100, 25, v⟩ = .ok (.encode d) ∧
    (d.modeReq = match v.toNat % 8 with
      | 0 => .noRequest | 1 => .want .off | 2 => .want .auto | 3 => .want .cool | 4 => .want .dry
      | 5 => .want .fan | 6 => .want .heat | _ => .reserved7) ∧
    (d.fanReq = match v.toNat / 8 % 8 with
      | 0 => .noRequest | 1 => .want .auto | 2 => .want .quiet | 3 => .want .low | 4 => .want .medium
      | 5 => .want .high | 6 => .reserved6 | _ => .reserved7) ∧
    d.vswing = v.getLsbD 6 ∧ d.hswing = v.getLsbD 7 ∧ d.tempPresent = v.getLsbD 8 ∧
    d.tempQ88.toNat = v.toNat / 512

/-- R104: frame byte `i` is bits `[8i+7:8i]` of the operand of CHECK, EXTRACT and DECODE, and payload byte `i` of
the result of ENCODE. -/
def Obligations.BytesArePackedLittleFirst : Prop :=
  (∀ v : BitVec 160, ∃ f, decode ⟨0b001, 160, v⟩ = .ok (.check f) ∧ decode ⟨0b010, 160, v⟩ = .ok (.extract f) ∧
    decode ⟨0b011, 160, v⟩ = .ok (.decode f) ∧ ∀ i : Fin 20, f[i].toNat = v.toNat / 256 ^ i.val % 256) ∧
  ∀ p : Payload, ∃ w, payloadField (.encode p) = some w ∧ ∀ i : Fin 6, p[i].toNat = w.toNat / 256 ^ i.val % 256

/-- R107: the bit layout and the numbers of every record EXTRACT returns, and the values it never produces. -/
def Obligations.SemanticStateBitLayout : Prop :=
  ∀ s f st, Returns (.extract f) s (.extract st) → ∃ w, stField (.extract st) = some w ∧
    (w.getLsbD 0 = decide (st.power = .on)) ∧
    (w.extractLsb' 1 8 = st.curTemp) ∧
    ((w.extractLsb' 9 3).toNat = match st.mode with
      | .off => 0 | .auto => 1 | .cool => 2 | .dry => 3 | .fan => 4 | .heat => 5) ∧
    ((w.extractLsb' 12 3).toNat = match st.fan with
      | .auto => 0 | .quiet => 1 | .low => 2 | .medium => 3 | .high => 4) ∧
    ((w.extractLsb' 12 3).toNat ≠ 1) ∧
    ((w.extractLsb' 15 3).toNat = match st.vflow with
      | .pos1 => 0 | .pos2 => 1 | .pos3 => 2 | .pos4 => 3 | .pos5 => 4 | .pos6 => 5 | .swing => 6) ∧
    ((w.extractLsb' 18 3).toNat = match st.hflow with
      | .pos1 => 0 | .pos2 => 1 | .pos3 => 2 | .pos4 => 3 | .pos5 => 4 | .pos6 => 5 | .swing => 6) ∧
    (w.extractLsb' 21 5 = st.unk)

/-- R108: the bits `emitted`, `valid` and `status` of the results that have them. -/
def Obligations.StatusBitsOfResults : Prop :=
  ∀ s, wellFormedCfg s.cfg →
    (∀ b i, i = Instr.feed b ∨ i = Instr.rx b → ∃ t r, exec i s = .next t ∧ t.results = s.results ++ [r] ∧
      emittedBit r = some (if s.cursor.val = 19 then 1 else 0)) ∧
    (∀ b, s.cursor.val = 19 → ∃ t r f, exec (.rx b) s = .next t ∧ t.results = s.results ++ [r] ∧
      emittedFrame r = some f ∧ statusField r = some (if f[19].toNat = sumSlice f 0 19 % 256 then 0 else 1)) ∧
    (∀ f : Frame, ∃ r, Returns (.check f) s r ∧
      validBit r = some (if f[19].toNat = sumSlice f 0 19 % 256 then 1 else 0)) ∧
    (∀ f : Frame, ∃ r, Returns (.decode f) s r ∧
      statusField r = some (if f[19].toNat = sumSlice f 0 19 % 256 then 0 else 1))

/-- R113: a FEEDS or RXS line stands for the FEED or RX lines of its bytes, in order; FEEDFRAME and RXFRAME for
those of the frame's twenty bytes. Beside them and R112's seven there is no mnemonic; that their letter case counts,
and that FEEDS and RXS have at least one byte, is the model's reading (DEDUCED, log entry 13). -/
def Obligations.PseudoInstructionsExpand : Prop :=
  (∀ ws : List (List Char), ws ≠ [] →
    Asm.statement "FEEDS".toList ((ws.map Asm.Token.word).intersperse .comma) =
      (ws.mapM fun w => Asm.statement "FEED".toList [.word w]).map List.flatten ∧
    Asm.statement "RXS".toList ((ws.map Asm.Token.word).intersperse .comma) =
      (ws.mapM fun w => Asm.statement "RX".toList [.word w]).map List.flatten) ∧
  (∀ ts (f : Frame), Asm.statement "CHECK".toList ts = some [.check f] →
    Asm.statement "FEEDFRAME".toList ts = some (f.toList.map .feed) ∧
    Asm.statement "RXFRAME".toList ts = some (f.toList.map .rx)) ∧
  ∀ m ts, m ∉ ["FEED", "RX", "CHECK", "EXTRACT", "DECODE", "ENCODE", "RESET", "FEEDS", "RXS", "FEEDFRAME",
      "RXFRAME"].map String.toList → Asm.statement m ts = none

/-! ### Rules of the whole machine -/

/-- R68: CHECK, EXTRACT, DECODE and ENCODE change no state, and their result depends on nothing but their operand
and `cfg`: in every state with the same `cfg` they return the same. -/
def Obligations.PureOperationsDependOnTheirOperandAlone : Prop :=
  ∀ i s t, byteTaken i = none → i ≠ .reset → exec i s = .next t →
    ∃ r, t = { s with results := s.results ++ [r] } ∧ ∀ s', s'.cfg = s.cfg → Returns i s' r

/-- R36: no step writes `cfg`. -/
def Obligations.ConfigurationIsConstant : Prop :=
  ∀ s t, step s = .next t → t.cfg = s.cfg

/-- R34, R33: the cursor moves only by FEED and RX, up by one or from 19 to 0, and by RESET, to 0. -/
def Obligations.CursorMovesOnlyByItsOwnOperations : Prop :=
  ∀ i s t, exec i s = .next t →
    (∀ b, byteTaken i = some b → t.cursor.val = if s.cursor.val < 19 then s.cursor.val + 1 else 0) ∧
    (i = .reset → t.cursor.val = 0) ∧
    (byteTaken i = none → i ≠ .reset → t.cursor = s.cursor)

/-- R246, R170, R15: a well-formed operation always completes with one more result; any other outcome is one of the
four refusals, and there is no fault. -/
def Obligations.EveryWellFormedOperationCompletes : Prop :=
  (∀ i s, wellFormedCfg s.cfg → i.wellFormed = true →
    ∃ t r, exec i s = .next t ∧ t.results = s.results ++ [r] ∧ t.requests = s.requests) ∧
  ∀ s, (∃ t, step s = .next t) ∨
    ∃ a, step s = .refused a ∧ (a = .reservedOp ∨ a = .badOperand ∨ a = .reservedValue ∨ a = .badConfig)

/-- R144, R35: a result once returned is never changed: a run only adds results after those already there. -/
def Obligations.ReturnedResultsNeverChange : Prop :=
  ∀ n s t, runFor n s = .next t → ∃ rs, t.results = s.results ++ rs ∧ rs.length ≤ n

/-- The invariant of every reachable state holds at power-on, whatever the configuration. -/
def Obligations.RecordIsConsistentAtPowerOn : Prop :=
  ∀ cfg, ConsistentRecord (State.powerOn cfg)

/-- R33, R141, R98, R207, R171: every step keeps the invariant: the cursor counts the bytes since the last RESET,
frames were emitted on exactly the boundaries, and every result returned is a legal one. -/
def Obligations.EveryStepKeepsTheRecordConsistent : Prop :=
  ∀ s t, ConsistentRecord s → step s = .next t → ConsistentRecord t

/-- R253: a step of one instance leaves every other as it was, and steps of two instances give the same in either
order. -/
def Obligations.InstancesDoNotInterfere : Prop :=
  ∀ p q (j k : Nat), j ≠ k → Platform.stepAt p j = some q →
    q.blocks[k]? = p.blocks[k]? ∧
    ∀ r, Platform.stepAt p k = some r → ∃ z, Platform.stepAt q k = some z ∧ Platform.stepAt r j = some z
end

