-- ==== Sys2Proof/Laws/Bytes.lean ====
section
/-! SUPPORT. Little-first packing of bytes (R104) and the checksum's sum (R160), one lemma per fact. -/

namespace Sys2Proof

theorem packBytes_lt (bs : List Byte) : packBytes bs < 256 ^ bs.length := by
  induction bs with
  | nil => simp [packBytes]
  | cons b bs ih =>
    have hb := b.isLt
    simp only [packBytes, List.length_cons, Nat.pow_succ]
    omega

/-- Byte `i` of packed bytes is the `i`-th byte (R104). -/
theorem packBytes_byte (bs : List Byte) (i : Nat) (h : i < bs.length) :
    packBytes bs / 256 ^ i % 256 = bs[i].toNat := by
  induction bs generalizing i with
  | nil => cases h
  | cons b bs ih =>
    have hb := b.isLt
    cases i with
    | zero => simp only [packBytes, Nat.pow_zero, List.getElem_cons_zero]; omega
    | succ i =>
      have hd : packBytes (b :: bs) / 256 = packBytes bs := by simp only [packBytes]; omega
      rw [Nat.pow_succ', ← Nat.div_div_eq_div_mul, hd, List.getElem_cons_succ]
      exact ih i (by simpa using h)

/-- Byte `i` of a frame word (R104). -/
theorem frameOfBits_byte (v : BitVec 160) (i : Fin 20) :
    (frameOfBits v)[i].toNat = v.toNat / 256 ^ i.val % 256 := by
  simp only [frameOfBits, Fin.getElem_fin, Vector.getElem_ofFn, BitVec.extractLsb'_toNat, Nat.shiftRight_eq_div_pow]
  rw [show (256 : Nat) = 2 ^ 8 by rfl, ← Nat.pow_mul]

theorem frameBits_toNat (f : Frame) : (frameBits f).toNat = packBytes f.toList := by
  have h := packBytes_lt f.toList
  simp only [Vector.length_toList] at h
  simp only [frameBits, BitVec.toNat_ofNat]
  exact Nat.mod_eq_of_lt (by simpa using h)

theorem payloadBits_toNat (p : Payload) : (payloadBits p).toNat = packBytes p.toList := by
  have h := packBytes_lt p.toList
  simp only [Vector.length_toList] at h
  simp only [payloadBits, BitVec.toNat_ofNat]
  exact Nat.mod_eq_of_lt (by simpa using h)

/-- Unpacking a packed frame gives it back (R104). -/
theorem frameOfBits_frameBits (f : Frame) : frameOfBits (frameBits f) = f := by
  refine Vector.ext fun i hi => BitVec.eq_of_toNat_eq ?_
  have h := frameOfBits_byte (frameBits f) ⟨i, hi⟩
  rw [frameBits_toNat, packBytes_byte _ _ (by simpa using hi)] at h
  simpa using h

/-- Two numbers below `256 ^ n` with the same `n` bytes are equal. -/
theorem eq_of_bytes {n a b : Nat} (ha : a < 256 ^ n) (hb : b < 256 ^ n)
    (h : ∀ i < n, a / 256 ^ i % 256 = b / 256 ^ i % 256) : a = b := by
  induction n generalizing a b with
  | zero => simp only [Nat.pow_zero] at ha hb; omega
  | succ n ih =>
    rw [Nat.pow_succ] at ha hb
    have h0 := h 0 (by omega)
    have hq : a / 256 = b / 256 := by
      refine ih (by omega) (by omega) fun i hi => ?_
      have := h (i + 1) (by omega)
      rwa [Nat.pow_succ', ← Nat.div_div_eq_div_mul, ← Nat.div_div_eq_div_mul] at this
    simp only [Nat.pow_zero, Nat.div_one] at h0
    omega

/-- Packing an unpacked frame word gives it back (R104). -/
theorem frameBits_frameOfBits (v : BitVec 160) : frameBits (frameOfBits v) = v := by
  refine BitVec.eq_of_toNat_eq ?_
  have hp := packBytes_lt (frameOfBits v).toList
  rw [Vector.length_toList] at hp
  rw [frameBits_toNat]
  refine eq_of_bytes hp (by simpa using v.isLt) fun i hi => ?_
  rw [packBytes_byte _ _ (by simpa using hi)]
  simpa using frameOfBits_byte v ⟨i, hi⟩

theorem modeReq_ofBits_bits (m : ModeReq) : ModeReq.ofBits m.bits = m := by
  rcases m with - | m | -
  · rfl
  · cases m <;> rfl
  · rfl

theorem fanReq_ofBits_bits (f : FanReq) : FanReq.ofBits f.bits = f := by
  rcases f with - | f | - | -
  · rfl
  · cases f <;> rfl
  · rfl
  · rfl

theorem modeReq_bits_ofBits (v : BitVec 3) : (ModeReq.ofBits v).bits = v := by
  revert v; decide

theorem fanReq_bits_ofBits (v : BitVec 3) : (FanReq.ofBits v).bits = v := by
  revert v; decide

theorem op_ofBits_bits (o : Op) : Op.ofBits o.bits = some o := by cases o <;> rfl

theorem op_bits_of_ofBits {v : BitVec 3} {o : Op} (h : Op.ofBits v = some o) : o.bits = v := by
  revert v o; decide

end Sys2Proof

namespace Sys2Proof.Machine

/-- Writing one of the summed bytes changes the sum by the difference. -/
theorem sum_map_set (bs : List Byte) (i : Nat) (h : i < bs.length) (b : Byte) :
    ((bs.set i b).map BitVec.toNat).sum + bs[i].toNat = (bs.map BitVec.toNat).sum + b.toNat := by
  induction bs generalizing i with
  | nil => cases h
  | cons x xs ih =>
    cases i with
    | zero => simp only [List.set_cons_zero, List.map_cons, List.sum_cons, List.getElem_cons_zero]; omega
    | succ i =>
      have := ih i (by simpa using h)
      simp only [List.set_cons_succ, List.map_cons, List.sum_cons, List.getElem_cons_succ]
      omega

/-- The checksum's sum after one of the bytes 0 to 18 is written (R160). -/
theorem sumSlice_set (f : Frame) (i : Nat) (h : i < 19) (b : Byte) :
    sumSlice (f.set i b) 0 19 + f[i].toNat = sumSlice f 0 19 + b.toNat := by
  have hl : i < (f.toList.take 19).length := by simp; omega
  have hs := sum_map_set (f.toList.take 19) i hl b
  rw [← List.take_set, List.getElem_take, Vector.getElem_toList] at hs
  simp only [sumSlice, List.drop_zero, Vector.toList_set]
  exact hs

/-- Byte 19 is no part of the sum (R160). -/
theorem sumSlice_set_last (f : Frame) (b : Byte) : sumSlice (f.set 19 b) 0 19 = sumSlice f 0 19 := by
  simp [sumSlice]

theorem frameValid_iff (f : Frame) : frameValid f = true ↔ f[19].toNat = sumSlice f 0 19 % 256 := by
  simp [frameValid, frameChecksum, checksum, ← BitVec.toNat_inj]

end Sys2Proof.Machine
end

