-- ==== Sys2Proof/Laws/State.lean ====
section
/-! SUPPORT. One lemma per field per update of State, so that no proof unfolds a record update. -/

namespace Sys2Proof.Machine

@[simp] theorem State.report_buf (s : State) (r : Result) : (s.report r).buf = s.buf := rfl
@[simp] theorem State.report_cursor (s : State) (r : Result) : (s.report r).cursor = s.cursor := rfl
@[simp] theorem State.report_cfg (s : State) (r : Result) : (s.report r).cfg = s.cfg := rfl
@[simp] theorem State.report_requests (s : State) (r : Result) : (s.report r).requests = s.requests := rfl
@[simp] theorem State.report_results (s : State) (r : Result) : (s.report r).results = s.results ++ [r] := rfl
@[simp] theorem State.report_freeCount (s : State) (r : Result) : (s.report r).freeCount = s.freeCount := rfl

@[simp] theorem State.afterFeed_buf (s : State) (b : Byte) : (s.afterFeed b).buf = s.filledBuf b := rfl
@[simp] theorem State.afterFeed_cursor (s : State) (b : Byte) :
    (s.afterFeed b).cursor = if s.cursor = 19 then 0 else s.cursor + 1 := rfl
@[simp] theorem State.afterFeed_cfg (s : State) (b : Byte) : (s.afterFeed b).cfg = s.cfg := rfl
@[simp] theorem State.afterFeed_requests (s : State) (b : Byte) : (s.afterFeed b).requests = s.requests := rfl
@[simp] theorem State.afterFeed_results (s : State) (b : Byte) : (s.afterFeed b).results = s.results := rfl
@[simp] theorem State.afterFeed_freeCount (s : State) (b : Byte) : (s.afterFeed b).freeCount = s.freeCount := rfl

@[simp] theorem State.clearReassembler_cursor (s : State) : s.clearReassembler.cursor = 0 := by
  simp only [State.clearReassembler]
@[simp] theorem State.clearReassembler_cfg (s : State) : s.clearReassembler.cfg = s.cfg := by
  simp only [State.clearReassembler]
@[simp] theorem State.clearReassembler_requests (s : State) : s.clearReassembler.requests = s.requests := by
  simp only [State.clearReassembler]
@[simp] theorem State.clearReassembler_results (s : State) : s.clearReassembler.results = s.results := by
  simp only [State.clearReassembler]
@[simp] theorem State.clearReassembler_freeCount (s : State) :
    s.clearReassembler.freeCount = s.freeCount + 20 := by simp only [State.clearReassembler]

@[simp] theorem State.withFetchWord_requests (s : State) (nbits w : Nat) :
    (s.withFetchWord nbits w).requests = Request.ofTableWord nbits w :: s.requests := rfl

@[simp] theorem State.powerOn_cursor (cfg : Cfg) : (State.powerOn cfg).cursor = 0 := rfl
@[simp] theorem State.powerOn_cfg (cfg : Cfg) : (State.powerOn cfg).cfg = cfg := rfl
@[simp] theorem State.powerOn_requests (cfg : Cfg) : (State.powerOn cfg).requests = [] := rfl
@[simp] theorem State.powerOn_results (cfg : Cfg) : (State.powerOn cfg).results = [] := rfl

end Sys2Proof.Machine
end

