-- ==== Sys2Proof/Laws/Ops.lean ====
section
/-! SUPPORT. What each shared operation can do, said once: the configuration check, a reply, and the reassembler's
byte. -/

namespace Sys2Proof.Machine

theorem whenConfigured_of_wf {s : State} (h : wellFormedCfg s.cfg) (o : Outcome) : whenConfigured s o = o := if_pos h

theorem whenConfigured_of_not_wf {s : State} (h : ¬ wellFormedCfg s.cfg) (o : Outcome) :
    whenConfigured s o = .refused .badConfig := if_neg h

theorem whenConfigured_eq_next {s t : State} {o : Outcome} :
    whenConfigured s o = .next t ↔ wellFormedCfg s.cfg ∧ o = .next t := by
  unfold whenConfigured
  split
  · next h => simp [h]
  · next h => simp [h]

theorem next_eq_next {a t : State} : (.next a : Outcome) = .next t ↔ t = a := by
  rw [Host.Outcome.next.injEq, eq_comm]

theorem replyWith_eq_next {s t : State} {r : Result} :
    replyWith r s = .next t ↔ wellFormedCfg s.cfg ∧ t = s.report r := by
  rw [replyWith, whenConfigured_eq_next, next_eq_next]

/-- FEED's write reaches the byte at the cursor and no other. -/
theorem State.filledBuf_getElem (s : State) (b : Byte) (j : Fin 20) :
    (s.filledBuf b)[j] = if j = s.cursor then b else s.buf[j] := by
  rcases eq_or_ne j s.cursor with h | h
  · subst h
    simp [State.filledBuf]
  · have hv : s.cursor.val ≠ j.val := fun e => h (Fin.ext e.symm)
    simpa [State.filledBuf, h] using Vector.getElem_set_ne s.cursor.isLt j.isLt hv

/-- The cursor counts modulo 20 (R140, R34). -/
theorem State.afterFeed_cursor_val (s : State) (b : Byte) :
    (s.afterFeed b).cursor.val = (s.cursor.val + 1) % 20 := by
  simp only [State.afterFeed_cursor]
  split
  · next h => simp [h]
  · next h => simp [Fin.val_add]

/-- FEED emits exactly when its byte is the twentieth (R140). -/
theorem State.emission_isSome (s : State) (b : Byte) :
    (s.emission b).isSome = true ↔ (s.cursor.val + 1) % 20 = 0 := by
  have hlt := s.cursor.isLt
  unfold State.emission
  split
  · next h => simp [h]
  · next h =>
    have hv : s.cursor.val ≠ 19 := fun e => h (Fin.ext e)
    simp only [Option.isSome_none, Bool.false_eq_true, false_iff]
    omega

end Sys2Proof.Machine
end

