-- ==== Sys2Proof/Laws/Exec.lean ====
section
/-! SUPPORT. What each operation does when it answers a next state, one equivalence per constructor, and the cases of
a step. Proofs cite these instead of unfolding the meanings. -/

namespace Sys2Proof.Machine

theorem exec_feed_eq_next {b : Byte} {s t : State} : exec (.feed b) s = .next t ↔
    wellFormedCfg s.cfg ∧ t = (s.afterFeed b).report (.feed (s.emission b)) := by
  simp only [exec, execFeed, whenConfigured_eq_next, next_eq_next]

theorem exec_check_eq_next {f : Frame} {s t : State} : exec (.check f) s = .next t ↔
    wellFormedCfg s.cfg ∧ t = s.report (.check (frameValid f)) := replyWith_eq_next

theorem exec_extract_eq_next {f : Frame} {s t : State} : exec (.extract f) s = .next t ↔
    wellFormedCfg s.cfg ∧ t = s.report (.extract (extractFields s.cfg f)) := replyWith_eq_next

theorem exec_decode_eq_next {f : Frame} {s t : State} : exec (.decode f) s = .next t ↔
    wellFormedCfg s.cfg ∧ t = s.report (.decode (decodeFrame s.cfg f)) := replyWith_eq_next

theorem exec_encode_eq_next {d : DesiredState} {s t : State} : exec (.encode d) s = .next t ↔
    wellFormedCfg s.cfg ∧ hasReservedValue d = false ∧ t = s.report (.encode (encodePayload s.cfg d)) := by
  simp only [exec, execEncode, whenConfigured_eq_next]
  cases hasReservedValue d <;> simp [eq_comm (a := t)]

theorem exec_rx_eq_next {b : Byte} {s t : State} : exec (.rx b) s = .next t ↔ wellFormedCfg s.cfg ∧
    t = (s.afterFeed b).report (.rx ((s.emission b).map fun f => (f, decodeFrame s.cfg f))) := by
  simp only [exec, execRx, whenConfigured_eq_next, next_eq_next]

theorem exec_reset_eq_next {s t : State} : exec .reset s = .next t ↔
    wellFormedCfg s.cfg ∧ t = s.clearReassembler.report .reset := by
  simp only [exec, execReset, whenConfigured_eq_next, next_eq_next]

/-- No operation of an ill-formed configuration has a meaning (R9). -/
theorem exec_of_not_wf {s : State} (h : ¬ wellFormedCfg s.cfg) (i : Instr) : exec i s = .refused .badConfig := by
  cases i <;> exact whenConfigured_of_not_wf h _

/-- A reserved value is the absence of R106's legality. -/
theorem hasReservedValue_eq_not_legal (d : DesiredState) : hasReservedValue d = !d.legal := by
  rcases d with ⟨m, f, v, h, p, q⟩
  cases m <;> cases f <;> rfl

/-- What a step can do (R15, R67, R255): idle, take a request that is an operation, or refuse one that is none. -/
theorem step_cases (s : State) : (s.requests = [] ∧ step s = .next s) ∨
    ∃ r rest, s.requests = r :: rest ∧
      ((∃ i, decode r = .ok i ∧ step s = exec i { s with requests := rest }) ∨
        ∃ e, decode r = .error e ∧ step s = .refused (refusalOf e)) := by
  unfold step
  rcases h : s.requests with - | ⟨r, rest⟩
  · exact .inl ⟨rfl, rfl⟩
  · refine .inr ⟨r, rest, rfl, ?_⟩
    rcases hd : decode r with e | i
    · exact .inr ⟨e, rfl, by simp [hd]⟩
    · exact .inl ⟨i, rfl, by simp [hd]⟩

/-- A step that answers a next state is idle, or is an operation's. -/
theorem step_eq_next_cases {s t : State} (h : step s = .next t) : t = s ∨
    ∃ r rest i, s.requests = r :: rest ∧ decode r = .ok i ∧ exec i { s with requests := rest } = .next t := by
  rcases step_cases s with ⟨-, e⟩ | ⟨r, rest, hr, ⟨i, hi, e⟩ | ⟨x, -, e⟩⟩
  · rw [h] at e
    exact .inl (by injection e)
  · exact .inr ⟨r, rest, i, hr, hi, e ▸ h⟩
  · rw [h] at e
    cases e

end Sys2Proof.Machine
end

