-- ==== Sys2Proof/Laws/PerInstr.lean ====
section
/-! SUPPORT. The statements made per instruction (LAWS.json). Encoding: an operation's request carries the select of
its own row of the opcode table and an operand of the width that select demands (R102, R104). -/

namespace Sys2Proof.Laws.Encoding

/-- The select and the operand width of an operation's request are those of its row. -/
def Statement (i : Instr) : Prop :=
  match i with
  | .feed _ => (Sys2Proof.encode i).op = 0b000 ∧ (Sys2Proof.encode i).width = 8
  | .check _ => (Sys2Proof.encode i).op = 0b001 ∧ (Sys2Proof.encode i).width = 160
  | .extract _ => (Sys2Proof.encode i).op = 0b010 ∧ (Sys2Proof.encode i).width = 160
  | .decode _ => (Sys2Proof.encode i).op = 0b011 ∧ (Sys2Proof.encode i).width = 160
  | .encode _ => (Sys2Proof.encode i).op = 0b100 ∧ (Sys2Proof.encode i).width = 25
  | .rx _ => (Sys2Proof.encode i).op = 0b101 ∧ (Sys2Proof.encode i).width = 8
  | .reset => (Sys2Proof.encode i).op = 0b110 ∧ (Sys2Proof.encode i).width = 0

theorem feed (b : Byte) : Statement (.feed b) := ⟨rfl, rfl⟩
theorem check (f : Frame) : Statement (.check f) := ⟨rfl, rfl⟩
theorem extract (f : Frame) : Statement (.extract f) := ⟨rfl, rfl⟩
theorem decode (f : Frame) : Statement (.decode f) := ⟨rfl, rfl⟩
theorem encode (d : DesiredState) : Statement (.encode d) := ⟨rfl, rfl⟩
theorem rx (b : Byte) : Statement (.rx b) := ⟨rfl, rfl⟩
theorem reset : Statement .reset := ⟨rfl, rfl⟩

end Sys2Proof.Laws.Encoding
end

