-- ==== Sys2Proof/Laws/Run.lean ====
section
/-! SUPPORT. Runs, one step at a time, so that a proof about a run never unfolds the host's recursion. -/

namespace Sys2Proof

open Sys2Proof.Machine

@[simp] theorem runFor_zero (s : State) : runFor 0 s = .next s := rfl

theorem runFor_succ_of_next {n : Nat} {s t : State} (h : step s = .next t) : runFor (n + 1) s = runFor n t := by
  simp only [runFor, Host.Core.run, core, h]

theorem runFor_succ_of_refused {n : Nat} {s : State} {a : Refusal} (h : step s = .refused a) :
    runFor (n + 1) s = .refused a := by
  simp only [runFor, Host.Core.run, core, h]

/-- A run of `n + 1` steps that answers a next state has a first step and a run of `n` after it. -/
theorem runFor_succ_eq_next {n : Nat} {s t : State} (h : runFor (n + 1) s = .next t) :
    ∃ u, step s = .next u ∧ runFor n u = .next t := by
  rcases hs : step s with u | f | a
  · exact ⟨u, rfl, (runFor_succ_of_next hs) ▸ h⟩
  · cases f
  · rw [runFor_succ_of_refused hs] at h
    cases h

/-- What `Returns` says of each pure operation: the configuration is well formed and the result is the operation's. -/
theorem returns_iff {i : Instr} {s t : State} {r : Result} (h : exec i s = .next t) :
    Returns i s r ↔ t = s.report r := by
  unfold Returns
  rw [h, Host.Outcome.next.injEq]
  rfl

end Sys2Proof
end

