-- ==== Sys2Proof/Laws/Tables.lean ====
section
/-! SUPPORT. What a table lookup can answer, said once for every table: the row whose code it is, when the codes are
distinct, and none exactly when no row has the code. -/

namespace Sys2Proof.Machine

/-- With distinct codes, a row's code is looked up to that row (R9, R95). -/
theorem lookupIn_of_mem {α : Type} {code : α → Byte} {rows : List α} (hd : (rows.map code).Nodup) {x : α}
    (hx : x ∈ rows) : lookupIn code rows (code x) = some x := by
  induction rows with
  | nil => cases hx
  | cons y ys ih =>
    rw [List.map_cons, List.nodup_cons] at hd
    rcases List.mem_cons.1 hx with rfl | hm
    · simp [lookupIn]
    · have hne : code y ≠ code x := fun e => hd.1 (e ▸ List.mem_map_of_mem hm)
      simpa [lookupIn, List.find?_cons, hne] using ih hd.2 hm

/-- A code no row has is looked up to none (R95). -/
theorem lookupIn_eq_none {α : Type} {code : α → Byte} {rows : List α} {c : Byte} :
    lookupIn code rows c = none ↔ c ∉ rows.map code := by
  simp only [lookupIn, List.find?_eq_none, List.mem_map, beq_iff_eq, not_exists, not_and]

/-- What is looked up has the code it was looked up by. -/
theorem lookupIn_code {α : Type} {code : α → Byte} {rows : List α} {c : Byte} {x : α}
    (h : lookupIn code rows c = some x) : code x = c ∧ x ∈ rows := by
  simp only [lookupIn] at h
  exact ⟨by simpa using List.find?_some h, List.mem_of_find?_eq_some h⟩

/-- What a well-formed configuration gives (R9), as propositions. -/
theorem wellFormedCfg_iff (cfg : Cfg) : wellFormedCfg cfg = true ↔
    (powerRows.map (powerCode cfg)).Nodup ∧ (modeRows.map (modeCode cfg)).Nodup ∧
    (fanRows.map (fanCode cfg)).Nodup ∧ (airflowRows.map (vflowCode cfg)).Nodup ∧
    (airflowRows.map (hflowCode cfg)).Nodup ∧ cfg.modeAuto ≠ 0xFF ∧ cfg.modeDry ≠ 0xFF ∧ cfg.modeFan ≠ 0xFF :=
  decide_eq_true_iff

theorem mem_powerRows (p : Power) : p ∈ powerRows := by cases p <;> decide
theorem mem_modeRows (m : Mode) : m ∈ modeRows := by cases m <;> decide
theorem mem_fanRows (f : FanSpeed) : f ∈ fanRows := by cases f <;> decide
theorem mem_airflowRows (a : Airflow) : a ∈ airflowRows := by cases a <;> decide

theorem lookupPower_code {cfg : Cfg} (h : wellFormedCfg cfg) (p : Power) :
    lookupPower cfg (powerCode cfg p) = some p := lookupIn_of_mem ((wellFormedCfg_iff cfg).1 h).1 (mem_powerRows p)

theorem lookupMode_code {cfg : Cfg} (h : wellFormedCfg cfg) (m : Mode) :
    lookupMode cfg (modeCode cfg m) = some m := lookupIn_of_mem ((wellFormedCfg_iff cfg).1 h).2.1 (mem_modeRows m)

theorem lookupFan_code {cfg : Cfg} (h : wellFormedCfg cfg) (f : FanSpeed) :
    lookupFan cfg (fanCode cfg f) = some (collapseQuiet f) := by
  simp [lookupFan, lookupIn_of_mem ((wellFormedCfg_iff cfg).1 h).2.2.1 (mem_fanRows f)]

theorem lookupVflow_code {cfg : Cfg} (h : wellFormedCfg cfg) (a : Airflow) :
    lookupVflow cfg (vflowCode cfg a) = some a := lookupIn_of_mem ((wellFormedCfg_iff cfg).1 h).2.2.2.1 (mem_airflowRows a)

theorem lookupHflow_code {cfg : Cfg} (h : wellFormedCfg cfg) (a : Airflow) :
    lookupHflow cfg (hflowCode cfg a) = some a := lookupIn_of_mem ((wellFormedCfg_iff cfg).1 h).2.2.2.2.1 (mem_airflowRows a)

/-- Decoding never gives QUIET (R98). -/
theorem lookupFan_ne_quiet {cfg : Cfg} {c : Byte} : lookupFan cfg c ≠ some .quiet := by
  unfold lookupFan
  rcases lookupIn (fanCode cfg) fanRows c with - | f
  · simp
  · cases f <;> simp [collapseQuiet]

end Sys2Proof.Machine
end

