-- ==== Sys2Proof/Laws/Returns.lean ====
section
/-! SUPPORT. What each pure operation returns, as one equivalence each, and what the parts of its result are: the bits
of `unk`, the bytes of a payload. Proofs about results cite these and unfold no meaning. -/

namespace Sys2Proof

open Sys2Proof.Machine

theorem report_inj {s : State} {r r' : Result} : s.report r = s.report r' ↔ r = r' := by
  constructor
  · intro h
    simpa using congrArg State.results h
  · rintro rfl
    rfl

theorem returns_check {f : Frame} {s : State} {v : Bool} :
    Returns (.check f) s (.check v) ↔ wellFormedCfg s.cfg = true ∧ v = frameValid f := by
  refine exec_check_eq_next.trans (and_congr_right fun _ => ?_)
  exact report_inj.trans (by simp)

theorem returns_extract {f : Frame} {s : State} {st : SemanticState} :
    Returns (.extract f) s (.extract st) ↔ wellFormedCfg s.cfg = true ∧ st = extractFields s.cfg f := by
  refine exec_extract_eq_next.trans (and_congr_right fun _ => ?_)
  exact report_inj.trans (by simp)

theorem returns_decode {f : Frame} {s : State} {r : Except FrameError SemanticState} :
    Returns (.decode f) s (.decode r) ↔ wellFormedCfg s.cfg = true ∧ r = decodeFrame s.cfg f := by
  refine exec_decode_eq_next.trans (and_congr_right fun _ => ?_)
  exact report_inj.trans (by simp)

theorem returns_encode {d : DesiredState} {s : State} {p : Payload} : Returns (.encode d) s (.encode p) ↔
    wellFormedCfg s.cfg = true ∧ hasReservedValue d = false ∧ p = encodePayload s.cfg d := by
  refine exec_encode_eq_next.trans (and_congr_right fun _ => and_congr_right fun _ => ?_)
  exact report_inj.trans (by simp)

/-- DECODE of a valid frame is EXTRACT's record (R169). -/
theorem decodeFrame_of_valid {cfg : Cfg} {f : Frame} (h : frameValid f = true) :
    decodeFrame cfg f = .ok (extractFields cfg f) := by simp [decodeFrame, h]

/-- DECODE of an invalid frame is the mismatch alone (R169, R247). -/
theorem decodeFrame_of_invalid {cfg : Cfg} {f : Frame} (h : frameValid f = false) :
    decodeFrame cfg f = .error .checksumMismatch := by simp [decodeFrame, h]

theorem unknownFlags_power (cfg : Cfg) (f : Frame) :
    (unknownFlags cfg f).getLsbD 0 = (lookupPower cfg f[5]).isNone := by
  simp only [unknownFlags, BitVec.getLsbD_append]
  simp [framePower]

theorem unknownFlags_mode (cfg : Cfg) (f : Frame) :
    (unknownFlags cfg f).getLsbD 1 = (lookupMode cfg f[7]).isNone := by
  simp only [unknownFlags, BitVec.getLsbD_append]
  simp [frameMode]

theorem unknownFlags_fan (cfg : Cfg) (f : Frame) :
    (unknownFlags cfg f).getLsbD 2 = (lookupFan cfg f[8]).isNone := by
  simp only [unknownFlags, BitVec.getLsbD_append]
  simp [frameFan]

theorem unknownFlags_vflow (cfg : Cfg) (f : Frame) :
    (unknownFlags cfg f).getLsbD 3 = (lookupVflow cfg f[9]).isNone := by
  simp only [unknownFlags, BitVec.getLsbD_append]
  simp [frameVflow]

theorem unknownFlags_hflow (cfg : Cfg) (f : Frame) :
    (unknownFlags cfg f).getLsbD 4 = (lookupHflow cfg f[10]).isNone := by
  simp only [unknownFlags, BitVec.getLsbD_append]
  simp [frameHflow]

theorem encodePayload_power (cfg : Cfg) (d : DesiredState) : (encodePayload cfg d)[0] = powerByte cfg d := rfl
theorem encodePayload_mode (cfg : Cfg) (d : DesiredState) : (encodePayload cfg d)[1] = modeByte cfg d := rfl
theorem encodePayload_temp (cfg : Cfg) (d : DesiredState) : (encodePayload cfg d)[2] = tempByte d := rfl
theorem encodePayload_fan (cfg : Cfg) (d : DesiredState) : (encodePayload cfg d)[3] = fanByte cfg d := rfl
theorem encodePayload_vflow (cfg : Cfg) (d : DesiredState) : (encodePayload cfg d)[4] = vflowByte cfg d := rfl
theorem encodePayload_hflow (cfg : Cfg) (d : DesiredState) : (encodePayload cfg d)[5] = hflowByte cfg d := rfl

end Sys2Proof
end

