-- ==== Sys2Proof/Tests/Slice0.lean ====
section
/-! SUPPORT. Tests: each expected value is one the spec writes out (its worked examples and vectors, 95_test_vectors.md,
named in the comment) or a word written from its encoding tables; and one witness per obligation with hypotheses. -/

namespace Sys2Proof.Tests

open Sys2Proof Sys2Proof.Machine

/-! ### Helpers -/

/-- An instance of the test configuration at a cursor, with its requests. -/
def testState (cursor : Fin 20) (rs : List Request) : State :=
  { State.powerOn Cfg.testing with cursor := cursor, requests := rs }

/-- The source's scenario frame F1 (95_test_vectors.md section 0). -/
def frameF1 : Frame :=
  #v[0x00, 0x00, 0x00, 0x00, 0x00, 0x01, 0x16, 0x01, 0x0B, 0x01, 0x01, 0x00, 0x00, 0x00, 0x00, 0x00, 0x00, 0x00, 0x00,
    0x25]

/-- F1's bytes 0 to 18 in the buffer, and the cursor at 19 (VF3, VR1). -/
def filledState : State := { testState 19 [] with buf := frameF1.set 19 0xEE }

/-- The last result after an outcome. -/
def lastResult : Outcome → Option Result
  | .next t => t.results.getLast?
  | .fault _ => none
  | .refused _ => none

/-- The cursor after an outcome. -/
def cursorAfter : Outcome → Option (Fin 20)
  | .next t => some t.cursor
  | .fault _ => none
  | .refused _ => none

/-- The refusal of an outcome. -/
def refusalOfOutcome : Outcome → Option Refusal
  | .next _ => none
  | .fault _ => none
  | .refused a => some a

/-- The packed record of EXTRACT of a frame under cfg_T. -/
def extracted (f : Frame) : Option (BitVec 26) := (lastResult (exec (.extract f) (testState 0 []))).bind stField

/-- The payload of ENCODE of a packed DesiredState under cfg_T, as a step on its request gives it. -/
def encoded (d : BitVec 25) : Option Result := lastResult (step (testState 0 [⟨0b100, 25, d⟩]))

/-! ### Well-formedness: an ill-formed term for each check (R106) -/

theorem test_mode_req_7_is_ill_formed :
    (Instr.encode ⟨.reserved7, .noRequest, false, false, false, 0⟩).wellFormed = false := by decide

theorem test_fan_req_6_and_7_are_ill_formed :
    (Instr.encode ⟨.noRequest, .reserved6, false, false, false, 0⟩).wellFormed = false ∧
    (Instr.encode ⟨.noRequest, .reserved7, false, false, false, 0⟩).wellFormed = false := by decide

theorem test_nearest_legal_values_are_well_formed :
    (Instr.encode ⟨.want .heat, .want .high, true, true, false, 0xFFFF⟩).wellFormed = true := by decide

/-- R9, VX4 and VX5: two equal codes, and 0xFF as a mode code, are ill-formed configurations; cfg_T is well formed,
and so is a MODE_OFF_CODE of 0xFF. -/
theorem test_configurations :
    wellFormedCfg { Cfg.testing with fanQuiet := 0xB3 } = false ∧
    wellFormedCfg { Cfg.testing with modeAuto := 0xFF } = false ∧
    wellFormedCfg { Cfg.testing with modeOff := 0xFF } = true ∧
    wellFormedCfg { Cfg.testing with powerOff := 0x01 } = false ∧
    wellFormedCfg { Cfg.testing with hflowSwing := 0x20 } = true ∧
    wellFormedCfg Cfg.testing = true := by decide

/-! ### Decoding: requests written out from R102, R104 and R105, one per operation -/

theorem test_decode_feed : decode ⟨0b000, 8, 0b01111110⟩ = .ok (.feed 0x7E) := by decide

theorem test_decode_check : decode ⟨0b001, 160, 0x2500000000000000000101_0B01_1601_0000000000⟩ = .ok (.check frameF1) := by
  decide

theorem test_decode_extract :
    decode ⟨0b010, 160, 0x2500000000000000000101_0B01_1601_0000000000⟩ = .ok (.extract frameF1) := by decide

theorem test_decode_decode :
    decode ⟨0b011, 160, 0x2500000000000000000101_0B01_1601_0000000000⟩ = .ok (.decode frameF1) := by decide

/-- VN1: `temp_q88 = 0x1800`, present, no hswing, vswing, MEDIUM = 4, HEAT = 6. -/
theorem test_decode_encode :
    decode ⟨0b100, 25, 0b0001100000000000_1_0_1_100_110⟩ =
      .ok (.encode ⟨.want .heat, .want .medium, true, false, true, 0x1800⟩) := by decide

theorem test_decode_rx : decode ⟨0b101, 8, 0b00100101⟩ = .ok (.rx 0x25) := by decide

theorem test_decode_reset : decode ⟨0b110, 0, 0⟩ = .ok .reset := by decide

/-- VX1, VX2: a reserved select whatever its operand, and a FEED of 160 bits. -/
theorem test_decode_rejects :
    decode ⟨0b111, 8, 0⟩ = .error .reservedOp ∧ decode ⟨0b111, 3, 5⟩ = .error .reservedOp ∧
    decode ⟨0b000, 160, 0⟩ = .error .badOperand ∧ decode ⟨0b110, 1, 0⟩ = .error .badOperand := by decide

theorem test_encode_gives_the_written_request :
    encode (.check frameF1) = ⟨0b001, 160, 0x2500000000000000000101_0B01_1601_0000000000⟩ ∧
    encode (.encode ⟨.want .off, .want .quiet, false, true, false, 0⟩) = ⟨0b100, 25, 0x91⟩ := by decide

/-- The table's own words: the select in bits 2:0, an operand of zeros. -/
theorem test_table_words :
    decodeTableWord 8 0 = some (.feed 0) ∧ decodeTableWord 8 1 = some (.check (Vector.replicate 20 0)) ∧
    decodeTableWord 8 4 = some (.encode ⟨.noRequest, .noRequest, false, false, false, 0⟩) ∧
    decodeTableWord 8 6 = some .reset ∧ decodeTableWord 8 7 = none := by decide

/-- A step right after reset does the issued request. -/
theorem test_fetch_word_runs :
    lastResult (step (State.reset.withFetchWord 8 5)) = some (.rx none) ∧
    cursorAfter (step (State.reset.withFetchWord 8 5)) = some 1 := by decide

/-! ### FEED and RESET (VF2, VF3, VF8) -/

theorem test_feed_at_18 :
    lastResult (exec (.feed 0x7E) (testState 18 [])) = some (.feed none) ∧
    cursorAfter (exec (.feed 0x7E) (testState 18 [])) = some 19 := by decide

theorem test_feed_at_19_emits :
    lastResult (exec (.feed 0x25) filledState) = some (.feed (some frameF1)) ∧
    cursorAfter (exec (.feed 0x25) filledState) = some 0 := by decide

theorem test_reset_at_7 : cursorAfter (exec .reset (testState 7 [])) = some 0 := by decide

/-! ### CHECK (VC1 to VC10) -/

theorem test_check_vectors :
    lastResult (exec (.check frameF1) (testState 0 [])) = some (.check true) ∧
    lastResult (exec (.check (frameF1.set 19 0x24)) (testState 0 [])) = some (.check false) := by decide

theorem test_checksums :
    frameValid (Vector.replicate 20 0) = true ∧ frameValid ((Vector.replicate 20 0xFF).set 19 0xED) = true ∧
    frameValid (Vector.replicate 20 0xFF) = false ∧ frameValid (frameF1.set 0 0x01) = false ∧
    frameValid ((frameF1.set 0 0x01).set 19 0x26) = true ∧ frameValid ((frameF1.set 5 0x02).set 6 0x15) = true ∧
    frameValid (((Vector.replicate 20 0).set 18 0x80).set 19 0x80) = true ∧
    frameValid (((Vector.replicate 20 0).set 0 0xFF).set 1 0x01) = true := by decide

/-! ### EXTRACT (VE1 to VE21) -/

theorem test_lookups_of_power_mode_and_fan :
    lookupPower Cfg.testing 0x01 = some .on ∧ lookupPower Cfg.testing 0xA0 = some .off ∧
    lookupPower Cfg.testing 0x00 = none ∧ lookupMode Cfg.testing 0x01 = some .cool ∧
    lookupMode Cfg.testing 0x04 = some .heat ∧ lookupMode Cfg.testing 0xA4 = some .off ∧
    lookupMode Cfg.testing 0xFF = none ∧ lookupFan Cfg.testing 0xB2 = some .low ∧
    lookupFan Cfg.testing 0xB3 = some .low ∧ lookupFan Cfg.testing 0x0B = some .high ∧
    lookupFan Cfg.testing 0x00 = none := by decide

theorem test_lookups_of_airflow :
    lookupVflow Cfg.testing 0x20 = some .swing ∧ lookupVflow Cfg.testing 0xC6 = some .pos6 ∧
    lookupVflow Cfg.testing 0xD7 = none ∧ lookupHflow Cfg.testing 0x20 = none ∧
    lookupHflow Cfg.testing 0xD7 = some .swing := by decide

theorem test_extract_F1 : extracted frameF1 = some 0x442D ∧ extracted (frameF1.set 19 0x00) = some 0x442D := by decide

theorem test_extract_unknown_codes :
    extracted #v[0, 0, 0, 0, 0, 0x55, 0xFF, 0x66, 0x77, 0x88, 0x99, 0, 0, 0, 0, 0, 0, 0, 0, 0x52] = some 0x3E001FE ∧
    extracted (Vector.replicate 20 0) = some 0x3E00000 := by decide

/-! ### DECODE (VD1, VD2, VD3, VD5) -/

theorem test_decode_F1 :
    (lastResult (exec (.decode frameF1) (testState 0 []))).bind stField = some 0x442D ∧
    (lastResult (exec (.decode frameF1) (testState 0 []))).bind statusField = some 0 := by decide

theorem test_decode_mismatches :
    lastResult (exec (.decode (frameF1.set 19 0x24)) (testState 0 [])) = some (.decode (.error .checksumMismatch)) ∧
    lastResult (exec (.decode #v[0x55, 0, 0, 0, 0, 0, 0x01, 0x16, 0x01, 0x0B, 0x01, 0x01, 0, 0, 0, 0, 0, 0, 0, 0])
      (testState 0 [])) = some (.decode (.error .checksumMismatch)) := by decide

/-! ### ENCODE (VN1 to VN16, P5) -/

theorem test_encode_every_cfg :
    encoded 0x300166 = some (.encode #v[0x01, 0x04, 0x18, 0x08, 0x20, 0x01]) ∧
    encoded 0x3BFF2B = some (.encode #v[0x01, 0x01, 0x1D, 0x0B, 0x01, 0x01]) ∧
    encoded 0x3C012B = some (.encode #v[0x01, 0x01, 0x1E, 0x0B, 0x01, 0x01]) ∧
    encoded 0x20012B = some (.encode #v[0x01, 0x01, 0x10, 0x0B, 0x01, 0x01]) ∧
    encoded 0x30002B = some (.encode #v[0x01, 0x01, 0x00, 0x0B, 0x01, 0x01]) ∧
    encoded 0x14012B = some (.encode #v[0x01, 0x01, 0x10, 0x0B, 0x01, 0x01]) ∧
    encoded 0x46012B = some (.encode #v[0x01, 0x01, 0x1E, 0x0B, 0x01, 0x01]) := by decide

theorem test_encode_cfg_T :
    encoded 0x0 = some (.encode #v[0xA0, 0xA1, 0x00, 0xB1, 0x01, 0x01]) ∧
    encoded 0x91 = some (.encode #v[0xA0, 0xA4, 0x00, 0xB2, 0x01, 0xD7]) ∧
    encoded 0x21FFDC = some (.encode #v[0x01, 0xA2, 0x10, 0xB3, 0x20, 0xD7]) ∧
    encoded 0x100010A = some (.encode #v[0x01, 0xA1, 0x10, 0xB1, 0x01, 0x01]) ∧
    encoded 0xFFFF2D = some (.encode #v[0x01, 0xA3, 0x1E, 0x0B, 0x01, 0x01]) ∧
    encoded 0x3C03EE = some (.encode #v[0x01, 0x04, 0x1E, 0x0B, 0x20, 0xD7]) ∧
    encoded 0x1FFF1B = some (.encode #v[0x01, 0x01, 0x10, 0xB3, 0x01, 0x01]) := by decide

/-- VX1 to VX4, VN15, VN16. -/
theorem test_refusals :
    refusalOfOutcome (step (testState 0 [⟨0b111, 8, 0⟩])) = some .reservedOp ∧
    refusalOfOutcome (step (testState 0 [⟨0b000, 160, 0⟩])) = some .badOperand ∧
    refusalOfOutcome (step (testState 0 [⟨0b100, 25, 0x7⟩])) = some .reservedValue ∧
    refusalOfOutcome (step (testState 0 [⟨0b100, 25, 0x30⟩])) = some .reservedValue ∧
    refusalOfOutcome (exec (.feed 0) { testState 0 [] with cfg := { Cfg.testing with fanQuiet := 0xB3 } }) =
      some .badConfig := by decide

/-! ### RX (VR1, VR2) and the round trip (VT1, VT2, VT3) -/

theorem test_rx_completes_F1 :
    (lastResult (exec (.rx 0x25) filledState)).bind stField = some 0x442D ∧
    ((lastResult (exec (.rx 0x25) filledState)).map eventsOf).map List.length = some 2 ∧
    cursorAfter (exec (.rx 0x25) filledState) = some 0 := by decide

theorem test_rx_mismatch :
    (lastResult (exec (.rx 0x24) filledState)).bind statusField = some 1 ∧
    (lastResult (exec (.rx 0x24) filledState)).map decodedEvent = some none := by decide

theorem test_round_trips :
    (decodedBits (decodeFrame Cfg.testing (wrap #v[0x01, 0x04, 0x18, 0x08, 0x20, 0x01] (Vector.replicate 20 0)))) =
      some 0x33A31 ∧
    (wrap #v[0xA0, 0xA4, 0x00, 0xB1, 0x01, 0xD7] (Vector.replicate 20 0))[19] = 0xCD ∧
    (decodedBits (decodeFrame Cfg.testing (wrap #v[0x01, 0x01, 0x16, 0xB2, 0x01, 0x01] (Vector.replicate 20 0)))) =
      some 0x242D := by decide

/-! ### The textual syntax (R112, R113) -/

theorem test_asm_encode :
    Asm.program "ENCODE mode=HEAT temp=24 fan=MEDIUM vswing=1   ; VN1" =
      some [.encode ⟨.want .heat, .want .medium, true, false, true, 0x1800⟩] ∧
    Asm.program "ENCODE" = some [.encode ⟨.noRequest, .noRequest, false, false, false, 0⟩] ∧
    Asm.program "ENCODE mode=AUTO temp=-128.0 fan=AUTO" =
      some [.encode ⟨.want .auto, .want .auto, false, false, true, 0x8000⟩] ∧
    Asm.program "ENCODE temp=0x10FF" = some [.encode ⟨.noRequest, .noRequest, false, false, true, 0x10FF⟩] ∧
    Asm.program "ENCODE temp=20.1" = none ∧ Asm.program "ENCODE temp=128" = none := by decide +kernel

theorem test_asm_frame_lines :
    Asm.program "CHECK [0,0,0,0,0,0x01,22,0x01,0x0B,0x01,0x01,0,0,0,0,0,0,0,0,CK]" = some [.check frameF1] ∧
    Asm.program "CHECK [0,0,0,0,0,0x01,22,0x01,0x0B,0x01,0x01,0,0,0,0,0,0,0,0,0x25" = none := by decide +kernel

theorem test_asm_frames :
    Asm.frameOfWords (List.replicate 18 ['0'] ++ [['0', 'x', '2', 'A'], ['C', 'K']]) =
      some (((Vector.replicate 20 0).set 18 0x2A).set 19 0x2A) ∧
    Asm.program "CHECK [0,0]" = none := by decide +kernel

theorem test_asm_pseudo_instructions :
    Asm.program "RESET\nFEEDS 0x01, 2,0xFF\nRX 7 ; one byte" =
      some [.reset, .feed 1, .feed 2, .feed 0xFF, .rx 7] ∧
    Asm.program "FEED 256" = none ∧ Asm.program "RESET 1" = none := by decide +kernel

/-! ### Witnesses: for each obligation with hypotheses, a state and operands that meet them, clause by clause -/

/-- The well-formed instance most witnesses speak of. -/
theorem testState_wf (c : Fin 20) (rs : List Request) : wellFormedCfg (testState c rs).cfg = true := by
  show wellFormedCfg Cfg.testing = true
  decide

theorem witness_PowerOnAndResetLeaveTheCursorAtZero : wellFormedCfg (testState 19 []).cfg = true := testState_wf 19 []

theorem witness_ResetChangesNothingElse : ∃ t, exec .reset (testState 19 []) = .next t :=
  ⟨_, exec_reset_eq_next.2 ⟨testState_wf 19 [], rfl⟩⟩

theorem witness_StepDoesTheOldestRequest :
    (testState 0 [⟨0b110, 0, 0⟩]).requests = ⟨0b110, 0, 0⟩ :: [] ∧ decode ⟨0b110, 0, 0⟩ = .ok .reset := by decide

theorem witness_IdleStepChangesNothing : (testState 7 []).requests = [] := rfl

theorem witness_TableWordRunsNext : decodeTableWord 8 4 =
    some (.encode ⟨.noRequest, .noRequest, false, false, false, 0⟩) := by decide

/-- Every clause of the statement, at the widths next to the right ones. -/
theorem witness_ReservedSelectAndWrongWidthAreRefused :
    (testState 0 [⟨0b111, 8, 0⟩]).requests = [⟨0b111, 8, 0⟩] ∧ ((⟨0b000, 7, 0⟩ : Request).width ≠ 8) ∧
    ((⟨0b101, 9, 0⟩ : Request).width ≠ 8) ∧ ((⟨0b001, 159, 0⟩ : Request).width ≠ 160) ∧
    ((⟨0b010, 161, 0⟩ : Request).width ≠ 160) ∧ ((⟨0b011, 48, 0⟩ : Request).width ≠ 160) ∧
    ((⟨0b100, 24, 0⟩ : Request).width ≠ 25) ∧ ((⟨0b110, 1, 0⟩ : Request).width ≠ 0) := by decide

/-- The reserved values 7, 6 and 7, and the legal ones next to them, 6 and 5. -/
theorem witness_ReservedDesiredStateIsRefused :
    wellFormedCfg (testState 0 []).cfg = true ∧ (0x7#25).toNat % 8 = 7 ∧ (0x30#25).toNat / 8 % 8 = 6 ∧
    (0x38#25).toNat / 8 % 8 = 7 ∧ (0x2E#25).toNat % 8 ≠ 7 ∧ (0x2E#25).toNat / 8 % 8 < 6 := by decide

/-- A well-formed configuration (cfg_T), and one ill formed in each of the ways R9 names. -/
theorem witness_IllFormedConfigurationIsRefused :
    wellFormedCfg Cfg.testing = true ∧ 0x01 = ({ Cfg.testing with powerOff := 0x01 } : Cfg).powerOff ∧
    wellFormedCfg { Cfg.testing with modeOff := 0x01 } = false ∧
    wellFormedCfg { Cfg.testing with fanLow := 0xB2 } = false ∧
    wellFormedCfg { Cfg.testing with vflowPos6 := 0x20 } = false ∧
    wellFormedCfg { Cfg.testing with hflowSwing := 0x01 } = false ∧
    ({ Cfg.testing with modeFan := 0xFF } : Cfg).modeFan = 0xFF := by decide

theorem witness_FeedTakesOneByte : wellFormedCfg (testState 0 []).cfg = true ∧ (testState 0 []).cursor.val < 19 ∧
    (testState 18 []).cursor.val < 19 ∧ (testState 19 []).cursor.val = 19 := by decide

theorem witness_NothingResynchronises : byteTaken (.feed 0x00) = some 0x00 ∧ byteTaken (.rx 0x25) = some 0x25 ∧
    (testState 19 []).cursor = filledState.cursor ∧ (∃ t, exec (.feed 0x00) (testState 19 []) = .next t) ∧
    ∃ t, exec (.rx 0x25) filledState = .next t :=
  ⟨rfl, rfl, rfl, ⟨_, exec_feed_eq_next.2 ⟨testState_wf 19 [], rfl⟩⟩,
    ⟨_, exec_rx_eq_next.2 ⟨testState_wf 19 [], rfl⟩⟩⟩

/-- One byte before a boundary, FEED and RX mixed, one of them crossing it. -/
theorem witness_EmissionCountLaw :
    wellFormedCfg (testState 18 ([.feed 1, .rx 2, .feed 3].map encode)).cfg = true ∧
    TakeBytes [.feed 1, .rx 2, .feed 3] [1, 2, 3] ∧
    (testState 18 ([.feed 1, .rx 2, .feed 3].map encode)).requests = [.feed 1, .rx 2, .feed 3].map encode :=
  ⟨testState_wf _ _, rfl, rfl⟩

theorem witness_EmittedFramesAreTheStreamCut :
    (testState 0 ((frameF1.toList.map .feed : List Instr).map encode)).cursor = 0 ∧
    TakeBytes (frameF1.toList.map .feed) frameF1.toList ∧
    (testState 0 ((frameF1.toList.map .feed : List Instr).map encode)).requests =
      (frameF1.toList.map .feed : List Instr).map encode := ⟨rfl, rfl, rfl⟩

theorem witness_ResetDiscardsAPartialFrame :
    wellFormedCfg (testState 13 ((.reset :: frameF1.toList.map .feed : List Instr).map encode)).cfg = true ∧
    (testState 13 ((.reset :: frameF1.toList.map .feed : List Instr).map encode)).requests =
      (.reset :: frameF1.toList.map .feed : List Instr).map encode := ⟨testState_wf _ _, rfl⟩

/-- Two instances that differ in the byte at the cursor and agree below it. -/
theorem witness_UnfilledBufferBytesAreUnobservable :
    filledState ≠ { filledState with buf := frameF1 } ∧
    ∀ j : Fin 20, j < filledState.cursor → filledState.buf[j] = ({ filledState with buf := frameF1 } : State).buf[j] := by
  decide

theorem witness_CheckComparesWithTheSum : wellFormedCfg (testState 0 []).cfg = true := testState_wf 0 []

theorem witness_OneChangedByteInvalidates : Returns (.check frameF1) (testState 0 []) (.check true) ∧
    (0x24 : Byte) ≠ frameF1[(19 : Fin 20)] ∧ (0x01 : Byte) ≠ frameF1[(0 : Fin 20)] :=
  ⟨returns_check.2 ⟨testState_wf 0 [], by decide⟩, by decide, by decide⟩

theorem witness_CancellingChangesStayValid : (0 : Fin 20).val < 19 ∧ (18 : Fin 20).val < 19 ∧ (0 : Fin 20) ≠ 18 ∧
    Returns (.check frameF1) (testState 0 []) (.check true) :=
  ⟨by decide, by decide, by decide, returns_check.2 ⟨testState_wf 0 [], by decide⟩⟩

theorem witness_ChecksumLaw : wellFormedCfg (testState 0 []).cfg = true := testState_wf 0 []

theorem witness_PowerLookup : wellFormedCfg (testState 0 []).cfg = true ∧ frameF1[5] = 0x01 ∧
    (frameF1.set 5 0xA0)[5] = (testState 0 []).cfg.powerOff ∧ (frameF1.set 5 0x00)[5] ≠ 0x01 ∧
    (frameF1.set 5 0x00)[5] ≠ (testState 0 []).cfg.powerOff := by decide

theorem witness_ModeLookup : wellFormedCfg (testState 0 []).cfg = true ∧ frameF1[7] = 0x01 ∧
    (frameF1.set 7 0x04)[7] = 0x04 ∧ (frameF1.set 7 0xA1)[7] = Cfg.testing.modeAuto ∧
    (frameF1.set 7 0xA2)[7] = Cfg.testing.modeDry ∧ (frameF1.set 7 0xA3)[7] = Cfg.testing.modeFan ∧
    (frameF1.set 7 0xA4)[7] = Cfg.testing.modeOff ∧
    (frameF1.set 7 0xFF)[7] ∉ modeRows.map (modeCode Cfg.testing) := by decide

theorem witness_FanLookup : wellFormedCfg (testState 0 []).cfg = true ∧ frameF1[8] = 0x0B ∧
    (frameF1.set 8 0x08)[8] = 0x08 ∧ (frameF1.set 8 0xB1)[8] = Cfg.testing.fanAuto ∧
    (frameF1.set 8 0xB2)[8] = Cfg.testing.fanQuiet ∧ (frameF1.set 8 0xB3)[8] = Cfg.testing.fanLow ∧
    (frameF1.set 8 0x00)[8] ∉ fanRows.map (fanCode Cfg.testing) := by decide

theorem witness_VerticalAirflowLookup : wellFormedCfg (testState 0 []).cfg = true ∧ frameF1[9] = 0x01 ∧
    (frameF1.set 9 0xC2)[9] = Cfg.testing.vflowPos2 ∧ (frameF1.set 9 0xC3)[9] = Cfg.testing.vflowPos3 ∧
    (frameF1.set 9 0xC4)[9] = Cfg.testing.vflowPos4 ∧ (frameF1.set 9 0xC5)[9] = Cfg.testing.vflowPos5 ∧
    (frameF1.set 9 0xC6)[9] = Cfg.testing.vflowPos6 ∧ (frameF1.set 9 0x20)[9] = 0x20 ∧
    (frameF1.set 9 0xD7)[9] ∉ airflowRows.map (vflowCode Cfg.testing) := by decide

theorem witness_HorizontalAirflowLookup : wellFormedCfg (testState 0 []).cfg = true ∧ frameF1[10] = 0x01 ∧
    (frameF1.set 10 0xD2)[10] = Cfg.testing.hflowPos2 ∧ (frameF1.set 10 0xD3)[10] = Cfg.testing.hflowPos3 ∧
    (frameF1.set 10 0xD4)[10] = Cfg.testing.hflowPos4 ∧ (frameF1.set 10 0xD5)[10] = Cfg.testing.hflowPos5 ∧
    (frameF1.set 10 0xD6)[10] = Cfg.testing.hflowPos6 ∧ (frameF1.set 10 0xD7)[10] = Cfg.testing.hflowSwing ∧
    (frameF1.set 10 0x20)[10] ∉ airflowRows.map (hflowCode Cfg.testing) := by decide

/-- Frames that agree in bytes 5 to 10 and differ in bytes 4 and 11, next to them. -/
theorem witness_EachFieldIsReadFromItsOwnByte : wellFormedCfg (testState 0 []).cfg = true ∧
    ∀ k : Fin 20, 5 ≤ k.val → k.val ≤ 10 → frameF1[k] = ((frameF1.set 4 0xEE).set 11 0xEE)[k] := by decide

theorem witness_DecodeChecksThenExtracts : wellFormedCfg (testState 0 []).cfg = true ∧
    (frameF1.set 19 0x24)[19].toNat ≠ sumSlice (frameF1.set 19 0x24) 0 19 % 256 ∧
    frameF1[19].toNat = sumSlice frameF1 0 19 % 256 := by decide

theorem witness_UnknownModeFallsBackToOff : wellFormedCfg (testState 0 []).cfg = true ∧
    (((Vector.replicate 20 0).set 7 0xFF).set 19 0xFF : Frame)[7] ∉ modeRows.map (modeCode Cfg.testing) ∧
    frameValid (((Vector.replicate 20 0).set 7 0xFF).set 19 0xFF) = true ∧
    wellFormedCfg { Cfg.testing with modeOff := 0xFF } = true := by decide

/-- The temperature clauses at their bounds: 4095, 4096, 7680 and 7681 of 256, and an absent request. -/
theorem witness_EncodeBuildsTheSixBytes : wellFormedCfg (testState 0 []).cfg = true ∧
    (⟨.want .off, .reserved6, false, false, false, 0⟩ : DesiredState).fanReq = .reserved6 ∧
    (ModeReq.want .heat) ≠ .reserved7 ∧ (FanReq.want .quiet) ≠ .reserved6 ∧ (FanReq.want .quiet) ≠ .reserved7 ∧
    (0x0FFF#16).toInt < 4096 ∧ 4096 ≤ (0x1000#16).toInt ∧ (0x1E00#16).toInt ≤ 7680 ∧ (0x1E01#16).toInt > 7680 ∧
    (0x8000#16).toInt < 4096 := by decide

theorem witness_TemperatureClampLaw :
    ∃ p, Returns (.encode ⟨.want .cool, .noRequest, false, false, true, 0x0A00⟩) (testState 0 []) (.encode p) :=
  ⟨_, returns_encode.2 ⟨testState_wf 0 [], by decide, rfl⟩⟩

theorem witness_RoundTripLaw : wellFormedCfg (testState 0 []).cfg = true ∧
    (⟨.want .off, .want .low, true, true, true, 0x1800⟩ : DesiredState).modeReq = .want .off ∧
    (⟨.want .off, .want .low, true, true, true, 0x1800⟩ : DesiredState).fanReq = .want .low ∧
    FanSpeed.low ≠ .quiet := by decide

theorem witness_RxIsFeedThenDecode : wellFormedCfg (testState 18 []).cfg = true ∧ wellFormedCfg filledState.cfg = true :=
  ⟨testState_wf 18 [], testState_wf 19 []⟩

theorem witness_LosslessDeliveryDecodesEachValidFrame :
    (testState 0 (((streamOf [frameF1, frameF1.set 19 0x24]).map .rx : List Instr).map encode)).cursor = 0 ∧
    (testState 0 (((streamOf [frameF1, frameF1.set 19 0x24]).map .rx : List Instr).map encode)).requests =
      ((streamOf [frameF1, frameF1.set 19 0x24]).map .rx : List Instr).map encode := ⟨rfl, rfl⟩

theorem witness_EachOperationHasOneRequest : decode ⟨0b100, 25, 0x91⟩ =
    .ok (.encode ⟨.want .off, .want .quiet, false, true, false, 0⟩) := by decide

theorem witness_SemanticStateBitLayout : ∃ st, Returns (.extract frameF1) (testState 0 []) (.extract st) :=
  ⟨_, returns_extract.2 ⟨testState_wf 0 [], rfl⟩⟩

theorem witness_StatusBitsOfResults : wellFormedCfg filledState.cfg = true ∧ filledState.cursor.val = 19 ∧
    frameF1[19].toNat = sumSlice frameF1 0 19 % 256 := by decide

theorem witness_PseudoInstructionsExpand : [['1'], ['0', 'x', 'F', 'F']] ≠ [] ∧
    Asm.statement "CHECK".toList (Asm.tokens [] "[0,0,0,0,0,1,22,1,11,1,1,0,0,0,0,0,0,0,0,CK]".toList) =
      some [.check frameF1] ∧
    "FEEDX".toList ∉ ["FEED", "RX", "CHECK", "EXTRACT", "DECODE", "ENCODE", "RESET", "FEEDS", "RXS", "FEEDFRAME",
      "RXFRAME"].map String.toList := by decide +kernel

theorem witness_PureOperationsDependOnTheirOperandAlone : byteTaken (.check frameF1) = none ∧
    Instr.check frameF1 ≠ .reset ∧ ∃ t, exec (.check frameF1) (testState 3 []) = .next t :=
  ⟨rfl, by decide, ⟨_, exec_check_eq_next.2 ⟨testState_wf 3 [], rfl⟩⟩⟩

theorem witness_ConfigurationIsConstant : ∃ t, step (testState 19 [⟨0b110, 0, 0⟩]) = .next t :=
  ⟨_, exec_reset_eq_next.2 ⟨testState_wf 19 [], rfl⟩⟩

theorem witness_CursorMovesOnlyByItsOwnOperations : (∃ t, exec (.feed 0) (testState 18 []) = .next t) ∧
    (∃ t, exec (.rx 0) (testState 19 []) = .next t) ∧ (∃ t, exec .reset (testState 19 []) = .next t) ∧
    ∃ t, exec (.check frameF1) (testState 19 []) = .next t :=
  ⟨⟨_, exec_feed_eq_next.2 ⟨testState_wf 18 [], rfl⟩⟩, ⟨_, exec_rx_eq_next.2 ⟨testState_wf 19 [], rfl⟩⟩,
    ⟨_, exec_reset_eq_next.2 ⟨testState_wf 19 [], rfl⟩⟩, ⟨_, exec_check_eq_next.2 ⟨testState_wf 19 [], rfl⟩⟩⟩

theorem witness_EveryWellFormedOperationCompletes : wellFormedCfg (testState 0 []).cfg = true ∧
    (Instr.encode ⟨.want .heat, .want .high, true, true, true, 0x8000⟩).wellFormed = true := by decide

theorem witness_ReturnedResultsNeverChange : runFor 2 (testState 3 []) = .next (testState 3 []) := rfl

/-- The invariant holds at power-on (cursor 0, an empty record), and a step from there goes on. -/
theorem witness_EveryStepKeepsTheRecordConsistent : ConsistentRecord (testState 0 [⟨0b000, 8, 1⟩]) ∧
    ∃ t, step (testState 0 [⟨0b000, 8, 1⟩]) = .next t :=
  ⟨⟨rfl, trivial, fun _ h => absurd h (List.not_mem_nil)⟩,
    ⟨_, (show exec (.feed 1) (testState 0 []) = _ from exec_feed_eq_next.2 ⟨testState_wf 0 [], rfl⟩)⟩⟩

theorem witness_InstancesDoNotInterfere : (0 : Nat) ≠ 1 ∧
    ((Platform.mk [testState 0 [⟨0b000, 8, 1⟩], testState 7 [⟨0b101, 8, 2⟩]]).stepAt 0).isSome = true ∧
    ((Platform.mk [testState 0 [⟨0b000, 8, 1⟩], testState 7 [⟨0b101, 8, 2⟩]]).stepAt 1).isSome = true := by decide

end Sys2Proof.Tests
end

