-- ==== Sys2Proof/Proofs/Scope.lean ====
section
/-! SUPPORT. The configuration check (R9) in both directions, and the statement of 00_scope.md: every operation of an
ill-formed configuration is refused BadConfig, and none of a well-formed one. -/

namespace Sys2Proof.Machine

/-- The power table has two codes, so that its distinctness is one inequality (R96). -/
theorem nodup_powerCodes_iff (cfg : Cfg) : (powerRows.map (powerCode cfg)).Nodup ↔ 0x01 ≠ cfg.powerOff := by
  simp [powerRows, powerCode]

/-- With the configuration check passed no operation is refused BadConfig (R9): ENCODE can still refuse, but only a
reserved value (R106), and the others always complete. -/
theorem exec_ne_badConfig_of_wf {s : State} (h : wellFormedCfg s.cfg) (i : Instr) :
    exec i s ≠ .refused .badConfig := by
  cases i with
  | encode d =>
    refine (whenConfigured_of_wf h _).trans_ne ?_
    split
    · simp
    · simp
  | feed _ | check _ | extract _ | decode _ | rx _ | reset => exact (whenConfigured_of_wf h _).trans_ne (by simp)

/-- Settles O8: R9's conditions, written out, are `wellFormedCfg`'s, which every operation checks before anything
else. -/
theorem illFormedConfigurationIsRefused : Obligations.IllFormedConfigurationIsRefused := by
  unfold Obligations.IllFormedConfigurationIsRefused
  refine fun s => ⟨?_, fun hill i => exec_of_not_wf (fun hwf => ?_) i⟩
  · rintro ⟨hpower, htables⟩
    exact exec_ne_badConfig_of_wf ((wellFormedCfg_iff s.cfg).2 ⟨(nodup_powerCodes_iff s.cfg).2 hpower, htables⟩)
  · obtain ⟨hpower, hmode, hfan, hvflow, hhflow, hauto, hdry, hfanOnly⟩ := (wellFormedCfg_iff s.cfg).1 hwf
    rcases hill with h | h | h | h | h | h | h | h
    · exact (nodup_powerCodes_iff s.cfg).1 hpower h
    · exact h hmode
    · exact h hfan
    · exact h hvflow
    · exact h hhflow
    · exact hauto h
    · exact hdry h
    · exact hfanOnly h

end Sys2Proof.Machine
end

