-- ==== Sys2Proof/Proofs/State.lean ====
section
/-! SUPPORT. The statements of 10_state.md: what a completed operation can do to the state (R34, R36), the invariant
`ConsistentRecord` at power-on and along every step, and the bytes of `buf` that never show (R39). -/

namespace Sys2Proof.Machine

/-! ### What a completed operation does to the state -/

/-- What a completed operation can be (R68, R73): a byte taken by the reassembler, a RESET, or a reply alone. -/
theorem exec_eq_next_cases {i : Instr} {s t : State} (h : exec i s = .next t) :
    (∃ b r, byteTaken i = some b ∧ t = (s.afterFeed b).report r) ∨
    (i = .reset ∧ t = s.clearReassembler.report .reset) ∨
    (byteTaken i = none ∧ i ≠ .reset ∧ ∃ r, t = s.report r) := by
  cases i with
  | feed b => exact .inl ⟨b, _, rfl, (exec_feed_eq_next.1 h).2⟩
  | rx b => exact .inl ⟨b, _, rfl, (exec_rx_eq_next.1 h).2⟩
  | reset => exact .inr (.inl ⟨rfl, (exec_reset_eq_next.1 h).2⟩)
  | check f => exact .inr (.inr ⟨rfl, nofun, _, (exec_check_eq_next.1 h).2⟩)
  | extract f => exact .inr (.inr ⟨rfl, nofun, _, (exec_extract_eq_next.1 h).2⟩)
  | decode f => exact .inr (.inr ⟨rfl, nofun, _, (exec_decode_eq_next.1 h).2⟩)
  | encode d => exact .inr (.inr ⟨rfl, nofun, _, (exec_encode_eq_next.1 h).2.2⟩)

/-- No operation writes `cfg` (R36). -/
theorem exec_cfg {i : Instr} {s t : State} (h : exec i s = .next t) : t.cfg = s.cfg := by
  rcases exec_eq_next_cases h with ⟨b, r, -, rfl⟩ | ⟨-, rfl⟩ | ⟨-, -, r, rfl⟩
  · simp
  · simp
  · simp

/-- Settles O41: an idle step keeps the state, and no operation writes `cfg`. -/
theorem configurationIsConstant : Obligations.ConfigurationIsConstant := by
  unfold Obligations.ConfigurationIsConstant
  intro s t h
  rcases step_eq_next_cases h with rfl | ⟨r, rest, i, -, -, hexec⟩
  · rfl
  · exact exec_cfg (s := { s with requests := rest }) hexec

/-- Settles O42: of the three kinds of operation, only the byte taken and the RESET write the cursor. -/
theorem cursorMovesOnlyByItsOwnOperations : Obligations.CursorMovesOnlyByItsOwnOperations := by
  unfold Obligations.CursorMovesOnlyByItsOwnOperations
  intro i s t h
  rcases exec_eq_next_cases h with ⟨b, r, hb, rfl⟩ | ⟨rfl, rfl⟩ | ⟨hnone, hne, r, rfl⟩
  · refine ⟨fun _ _ => ?_, ?_, fun hnone => ?_⟩
    · have hlt := s.cursor.isLt
      rw [State.report_cursor, State.afterFeed_cursor_val]
      split <;> omega
    · rintro rfl
      cases hb
    · rw [hb] at hnone
      cases hnone
  · exact ⟨nofun, fun _ => by simp, fun _ hne => absurd rfl hne⟩
  · refine ⟨fun b hb => ?_, fun h => absurd h hne, fun _ _ => rfl⟩
    rw [hnone] at hb
    cases hb

/-! ### The record of results: counting bytes and emissions -/

theorem bytesTaken_append (n : Nat) (rs rs' : List Result) :
    bytesTaken n (rs ++ rs') = bytesTaken (bytesTaken n rs) rs' := by
  induction rs generalizing n with
  | nil => rfl
  | cons r rs ih => cases r <;> exact ih _

theorem emitsOnBoundaries_append (n : Nat) (rs rs' : List Result) :
    EmitsOnBoundaries n (rs ++ rs') ↔ EmitsOnBoundaries n rs ∧ EmitsOnBoundaries (bytesTaken n rs) rs' := by
  induction rs generalizing n with
  | nil => simp [EmitsOnBoundaries, bytesTaken]
  | cons r rs ih => cases r <;> simp [EmitsOnBoundaries, bytesTaken, ih, and_assoc]

/-- One result more counts modulo 20 as it does from a cursor. -/
theorem bytesTaken_singleton_mod (n : Nat) (r : Result) :
    bytesTaken n [r] % 20 = bytesTaken (n % 20) [r] % 20 := by
  cases r <;> simp [bytesTaken]

/-- Whether one result more stands on a boundary is seen from a cursor. -/
theorem emitsOnBoundaries_singleton_mod (n : Nat) (r : Result) :
    EmitsOnBoundaries n [r] ↔ EmitsOnBoundaries (n % 20) [r] := by
  cases r <;> simp [EmitsOnBoundaries]

/-- The invariant is kept by one result more, if that result agrees with the cursor before and after it and is one the
block can return. -/
theorem consistentRecord_of_append {s t : State} {r : Result} (h : ConsistentRecord s)
    (hresults : t.results = s.results ++ [r]) (hcfg : t.cfg = s.cfg)
    (hcursor : t.cursor.val = bytesTaken s.cursor.val [r] % 20) (hemits : EmitsOnBoundaries s.cursor.val [r])
    (hlegal : LegalResult s.cfg r) : ConsistentRecord t := by
  obtain ⟨hcount, hbound, hall⟩ := h
  rw [hcount] at hcursor hemits
  refine ⟨?_, ?_, ?_⟩
  · rw [hcursor, hresults, bytesTaken_append, ← bytesTaken_singleton_mod]
  · rw [hresults, emitsOnBoundaries_append]
    exact ⟨hbound, (emitsOnBoundaries_singleton_mod _ r).2 hemits⟩
  · rw [hresults, hcfg, List.forall_mem_append, List.forall_mem_singleton]
    exact ⟨hall, hlegal⟩

/-! ### Which results the block can return -/

/-- EXTRACT gives no QUIET (R98, R164). -/
theorem legalRecord_extractFields (cfg : Cfg) (f : Frame) : LegalRecord (extractFields cfg f) := by
  show (lookupFan cfg (frameFan f)).getD .auto ≠ .quiet
  rcases hfan : lookupFan cfg (frameFan f) with - | speed
  · simp
  · rintro rfl
    exact lookupFan_ne_quiet hfan

theorem legalResult_decode (cfg : Cfg) (f : Frame) : LegalResult cfg (.decode (decodeFrame cfg f)) := by
  cases hv : frameValid f with
  | true =>
    rw [decodeFrame_of_valid hv]
    exact legalRecord_extractFields cfg f
  | false =>
    rw [decodeFrame_of_invalid hv]
    trivial

/-- RX decodes the frame it emitted exactly if its checksum is right (R171, R230). -/
theorem legalResult_rx (cfg : Cfg) (o : Option Frame) :
    LegalResult cfg (.rx (o.map fun f => (f, decodeFrame cfg f))) := by
  rcases o with - | f
  · trivial
  rw [Option.map_some]
  cases hv : frameValid f with
  | true =>
    rw [decodeFrame_of_valid hv]
    exact ⟨(frameValid_iff f).1 hv, legalRecord_extractFields cfg f⟩
  | false =>
    rw [decodeFrame_of_invalid hv]
    exact fun hsum => absurd ((frameValid_iff f).2 hsum) (by simp [hv])

/-- The temperature byte is the absent mark or a clamped temperature (R202, R207). -/
theorem tempByte_range (d : DesiredState) :
    tempByte d = 0 ∨ (16 ≤ (tempByte d).toNat ∧ (tempByte d).toNat ≤ 30) := by
  unfold tempByte
  split_ifs with hpresent hlow hhigh
  · exact .inr (by decide)
  · exact .inr (by decide)
  · have hmin : 16 * 256 ≤ targetTemp256 d := Int.not_lt.1 hlow
    have hmax : targetTemp256 d ≤ 30 * 256 := Int.not_lt.1 hhigh
    right
    rw [BitVec.toNat_ofInt]
    omega
  · exact .inl rfl

/-- R204: a vertical swing, or Position1. -/
theorem vflowByte_eq (cfg : Cfg) (d : DesiredState) : vflowByte cfg d = 0x01 ∨ vflowByte cfg d = 0x20 := by
  cases hswing : d.vswing with
  | true => exact .inr (by simp [vflowByte, vflowCode, hswing])
  | false => exact .inl (by simp [vflowByte, vflowCode, hswing])

/-- R205: a horizontal swing, or Position1. -/
theorem hflowByte_eq (cfg : Cfg) (d : DesiredState) :
    hflowByte cfg d = 0x01 ∨ hflowByte cfg d = cfg.hflowSwing := by
  cases hswing : d.hswing with
  | true => exact .inr (by simp [hflowByte, hflowCode, hswing])
  | false => exact .inl (by simp [hflowByte, hflowCode, hswing])

theorem legalResult_encode (cfg : Cfg) (d : DesiredState) : LegalResult cfg (.encode (encodePayload cfg d)) :=
  ⟨tempByte_range d, vflowByte_eq cfg d, hflowByte_eq cfg d⟩

/-! ### The invariant -/

/-- A reply that takes no byte and returns a legal result keeps the invariant. -/
theorem consistentRecord_report {s : State} {r : Result} (hs : ConsistentRecord s)
    (hcount : bytesTaken s.cursor.val [r] = s.cursor.val) (hemits : EmitsOnBoundaries s.cursor.val [r])
    (hlegal : LegalResult s.cfg r) : ConsistentRecord (s.report r) :=
  consistentRecord_of_append hs rfl rfl (by rw [hcount, State.report_cursor, Nat.mod_eq_of_lt s.cursor.isLt])
    hemits hlegal

/-- A completed operation keeps the invariant: its result agrees with what it did to the cursor. -/
theorem exec_keeps_consistentRecord {i : Instr} {s t : State} (hs : ConsistentRecord s) (h : exec i s = .next t) :
    ConsistentRecord t := by
  cases i with
  | feed b =>
    obtain ⟨-, rfl⟩ := exec_feed_eq_next.1 h
    exact consistentRecord_of_append hs rfl rfl (s.afterFeed_cursor_val b) ⟨s.emission_isSome b, trivial⟩ trivial
  | rx b =>
    obtain ⟨-, rfl⟩ := exec_rx_eq_next.1 h
    refine consistentRecord_of_append hs rfl rfl (s.afterFeed_cursor_val b) ⟨?_, trivial⟩ (legalResult_rx _ _)
    rw [Option.isSome_map]
    exact s.emission_isSome b
  | reset =>
    obtain ⟨-, rfl⟩ := exec_reset_eq_next.1 h
    exact consistentRecord_of_append (r := .reset) hs (by simp) (by simp) (by simp [bytesTaken]) trivial trivial
  | check f =>
    obtain ⟨-, rfl⟩ := exec_check_eq_next.1 h
    exact consistentRecord_report hs rfl trivial trivial
  | extract f =>
    obtain ⟨-, rfl⟩ := exec_extract_eq_next.1 h
    exact consistentRecord_report hs rfl trivial (legalRecord_extractFields _ f)
  | decode f =>
    obtain ⟨-, rfl⟩ := exec_decode_eq_next.1 h
    exact consistentRecord_report hs rfl trivial (legalResult_decode _ f)
  | encode d =>
    obtain ⟨-, -, rfl⟩ := exec_encode_eq_next.1 h
    exact consistentRecord_report hs rfl trivial (legalResult_encode _ d)

/-- Settles O45: the record is empty and the cursor 0. -/
theorem recordIsConsistentAtPowerOn : Obligations.RecordIsConsistentAtPowerOn := by
  unfold Obligations.RecordIsConsistentAtPowerOn
  exact fun cfg => ⟨rfl, trivial, fun _ hr => absurd hr List.not_mem_nil⟩

/-- Settles O46: an idle step keeps the state, and the requests waiting are no part of the invariant, which every
operation keeps. -/
theorem everyStepKeepsTheRecordConsistent : Obligations.EveryStepKeepsTheRecordConsistent := by
  unfold Obligations.EveryStepKeepsTheRecordConsistent
  intro s t hs h
  rcases step_eq_next_cases h with rfl | ⟨r, rest, i, -, -, hexec⟩
  · exact hs
  · exact exec_keeps_consistentRecord (s := { s with requests := rest }) hs hexec

/-! ### Bytes of the buffer that never show -/

/-- Two instances that can differ only in the bytes of `buf` at or above the cursor, and in the free-value counter. -/
structure AgreeBelowCursor (s s' : State) : Prop where
  cfg : s.cfg = s'.cfg
  cursor : s.cursor = s'.cursor
  requests : s.requests = s'.requests
  results : s.results = s'.results
  buf : ∀ j : Fin 20, j < s.cursor → s.buf[j] = s'.buf[j]

/-- Two outcomes that agree: next states that agree below the cursor, or the same refusal. -/
inductive OutcomesAgree : Outcome → Outcome → Prop
  | next {t t' : State} (h : AgreeBelowCursor t t') : OutcomesAgree (.next t) (.next t')
  | refused (a : Refusal) : OutcomesAgree (.refused a) (.refused a)

/-- An observation holds the results and the cursor, no byte of `buf` (R15, R39). -/
theorem OutcomesAgree.sameObserved {o o' : Outcome} (h : OutcomesAgree o o') : SameObserved o o' := by
  cases h with
  | next h => simp [SameObserved, observe, h.results, h.cursor]
  | refused a => rfl

namespace AgreeBelowCursor

variable {s s' : State}

theorem report (h : AgreeBelowCursor s s') (r : Result) : AgreeBelowCursor (s.report r) (s'.report r) :=
  { h with results := congrArg (· ++ [r]) h.results }

theorem withRequests (h : AgreeBelowCursor s s') (rs : List Request) :
    AgreeBelowCursor { s with requests := rs } { s' with requests := rs } :=
  { h with requests := rfl }

/-- The byte written is the one at the cursor, so the agreement reaches one byte further. -/
theorem filledBuf_getElem (h : AgreeBelowCursor s s') (b : Byte) {j : Fin 20} (hj : j ≤ s.cursor) :
    (s.filledBuf b)[j] = (s'.filledBuf b)[j] := by
  rw [State.filledBuf_getElem, State.filledBuf_getElem, ← h.cursor]
  split
  · rfl
  · next hne => exact h.buf j (lt_of_le_of_ne hj hne)

/-- A frame is emitted only with all its twenty bytes taken (R140), so the frames emitted are the same. -/
theorem emission_eq (h : AgreeBelowCursor s s') (b : Byte) : s.emission b = s'.emission b := by
  unfold State.emission
  rw [← h.cursor]
  split
  · next hlast =>
    refine congrArg some (Vector.ext fun j hj => ?_)
    exact h.filledBuf_getElem b (j := ⟨j, hj⟩) (hlast ▸ Fin.le_last _)
  · rfl

theorem afterFeed (h : AgreeBelowCursor s s') (b : Byte) : AgreeBelowCursor (s.afterFeed b) (s'.afterFeed b) where
  cfg := h.cfg
  cursor := by simp [h.cursor]
  requests := h.requests
  results := h.results
  buf j hj := by
    refine h.filledBuf_getElem b (j := j) ?_
    have hval : j.val < (s.cursor.val + 1) % 20 := s.afterFeed_cursor_val b ▸ hj
    exact Fin.le_def.2 (by omega)

/-- After a RESET no byte of `buf` is below the cursor, so the unspecified bytes need not be the same (R143). -/
theorem clearReassembler (h : AgreeBelowCursor s s') : AgreeBelowCursor s.clearReassembler s'.clearReassembler where
  cfg := by simp [h.cfg]
  cursor := by simp
  requests := by simp [h.requests]
  results := by simp [h.results]
  buf j hj := by simp at hj

/-- The configuration check refuses both instances or neither (R9). -/
theorem whenConfigured_agree (h : AgreeBelowCursor s s') {o o' : Outcome} (ho : OutcomesAgree o o') :
    OutcomesAgree (whenConfigured s o) (whenConfigured s' o') := by
  by_cases hwf : wellFormedCfg s.cfg
  · rwa [whenConfigured_of_wf hwf, whenConfigured_of_wf (h.cfg ▸ hwf)]
  · rw [whenConfigured_of_not_wf hwf, whenConfigured_of_not_wf (h.cfg ▸ hwf)]
    exact .refused _

/-- Every operation keeps the agreement: none shows a byte at or above the cursor that it has not written itself. -/
theorem exec_agree (h : AgreeBelowCursor s s') (i : Instr) : OutcomesAgree (exec i s) (exec i s') := by
  cases i with
  | feed b =>
    refine h.whenConfigured_agree ?_
    rw [h.emission_eq b]
    exact .next ((h.afterFeed b).report _)
  | rx b =>
    refine h.whenConfigured_agree ?_
    rw [h.emission_eq b, h.cfg]
    exact .next ((h.afterFeed b).report _)
  | reset => exact h.whenConfigured_agree (.next (h.clearReassembler.report _))
  | check f => exact h.whenConfigured_agree (.next (h.report _))
  | extract f =>
    refine h.whenConfigured_agree ?_
    rw [h.cfg]
    exact .next (h.report _)
  | decode f =>
    refine h.whenConfigured_agree ?_
    rw [h.cfg]
    exact .next (h.report _)
  | encode d =>
    refine h.whenConfigured_agree ?_
    rw [h.cfg]
    split
    · exact .refused _
    · exact .next (h.report _)

/-- The two instances have the same oldest request, and do it or refuse it alike. -/
theorem step_agree (h : AgreeBelowCursor s s') : OutcomesAgree (step s) (step s') := by
  unfold step
  rw [← h.requests]
  split
  · exact .next h
  · next r rest _ =>
    split
    · exact (h.withRequests rest).exec_agree _
    · exact .refused _

theorem runFor_agree (h : AgreeBelowCursor s s') (n : Nat) : OutcomesAgree (runFor n s) (runFor n s') := by
  induction n generalizing s s' with
  | zero => exact .next h
  | succ n ih =>
    have hstep := h.step_agree
    generalize hs : step s = o, hs' : step s' = o' at hstep
    cases hstep with
    | next ht =>
      rw [runFor_succ_of_next hs, runFor_succ_of_next hs']
      exact ih ht
    | refused a =>
      rw [runFor_succ_of_refused hs, runFor_succ_of_refused hs']
      exact .refused a

end AgreeBelowCursor

/-- Settles O14: agreement below the cursor is kept by every run, and it is all that a run shows. -/
theorem unfilledBufferBytesAreUnobservable : Obligations.UnfilledBufferBytesAreUnobservable := by
  unfold Obligations.UnfilledBufferBytesAreUnobservable
  intro s s' n hcfg hcursor hrequests hresults hbuf
  have hagree : AgreeBelowCursor s s' := ⟨hcfg, hcursor, hrequests, hresults, hbuf⟩
  exact (hagree.runFor_agree n).sameObserved

end Sys2Proof.Machine
end

