-- ==== Sys2Proof/Proofs/Memory.lean ====
section
/-! SUPPORT. The statements of 20_memory.md: a step does the oldest request (R71), the pure operations (R68), and the
byte stream cut into frames (R61). The last rests on one law of conservation: the frames emitted, followed by the bytes
that wait in `buf` below the cursor, are the bytes that waited before, followed by those taken. -/

namespace Sys2Proof.Machine

/-! ### One step -/

theorem step_eq_exec_of_decode {s : State} {r : Request} {rest : List Request} {i : Instr}
    (hreq : s.requests = r :: rest) (hdec : decode r = .ok i) : step s = exec i { s with requests := rest } := by
  simp only [step, hreq, hdec]

/-- Settles O3: a step takes the request at the head of the list, and does the operation it decodes to. -/
theorem stepDoesTheOldestRequest : Obligations.StepDoesTheOldestRequest := by
  unfold Obligations.StepDoesTheOldestRequest
  exact fun s r rest i hreq hdec => step_eq_exec_of_decode hreq hdec

/-- Settles O40: each of the four replies with a value computed from its operand and `cfg`, so an equal `cfg` passes
the same check and gives the same value. -/
theorem pureOperationsDependOnTheirOperandAlone : Obligations.PureOperationsDependOnTheirOperandAlone := by
  unfold Obligations.PureOperationsDependOnTheirOperandAlone
  intro i s t hnone hne h
  cases i with
  | feed b => cases hnone
  | rx b => cases hnone
  | reset => exact absurd rfl hne
  | check f =>
    obtain ⟨hwf, rfl⟩ := exec_check_eq_next.1 h
    exact ⟨_, rfl, fun s' hcfg => returns_check.2 ⟨hcfg ▸ hwf, rfl⟩⟩
  | extract f =>
    obtain ⟨hwf, rfl⟩ := exec_extract_eq_next.1 h
    exact ⟨_, rfl, fun s' hcfg => returns_extract.2 ⟨hcfg ▸ hwf, by rw [hcfg]⟩⟩
  | decode f =>
    obtain ⟨hwf, rfl⟩ := exec_decode_eq_next.1 h
    exact ⟨_, rfl, fun s' hcfg => returns_decode.2 ⟨hcfg ▸ hwf, by rw [hcfg]⟩⟩
  | encode d =>
    obtain ⟨hwf, hlegal, rfl⟩ := exec_encode_eq_next.1 h
    exact ⟨_, rfl, fun s' hcfg => returns_encode.2 ⟨hcfg ▸ hwf, hlegal, by rw [hcfg]⟩⟩

/-! ### The bytes that wait in the reassembler -/

/-- The bytes of `buf` below the cursor: those taken and not yet part of an emitted frame (R31, R61). -/
def State.waiting (s : State) : List Byte := s.buf.toList.take s.cursor.val

@[simp] theorem State.waiting_length (s : State) : s.waiting.length = s.cursor.val := by
  simp [State.waiting, s.cursor.isLt.le]

theorem State.waiting_of_cursor_zero {s : State} (h : s.cursor = 0) : s.waiting = [] := by
  simp [State.waiting, h]

@[simp] theorem State.waiting_report (s : State) (r : Result) : (s.report r).waiting = s.waiting := rfl

/-- FEED's write leaves the waiting bytes and puts its own after them (R140). -/
theorem State.filledBuf_take (s : State) (b : Byte) :
    (s.filledBuf b).toList.take (s.cursor.val + 1) = s.waiting ++ [b] := by
  have hlt : s.cursor.val < (s.filledBuf b).toList.length := by simp
  have hbelow : (s.filledBuf b).toList.take s.cursor.val = s.waiting := by
    rw [State.filledBuf, Vector.toList_set, List.take_set_of_le le_rfl, State.waiting]
  rw [← List.take_append_getElem hlt, hbelow]
  simp [State.filledBuf]

/-- No byte is lost, added or moved when one is taken: what is emitted and what then waits are what waited and the
byte taken (R61, R140). -/
theorem State.emission_append_waiting (s : State) (b : Byte) :
    streamOf (s.emission b).toList ++ (s.afterFeed b).waiting = s.waiting ++ [b] := by
  have htake := s.filledBuf_take b
  by_cases hlast : s.cursor = 19
  · have hwait : (s.afterFeed b).waiting = [] := State.waiting_of_cursor_zero (by simp [hlast])
    rw [hwait, ← htake]
    simp [State.emission, streamOf, hlast]
  · have hcursor : (s.afterFeed b).cursor.val = s.cursor.val + 1 := by
      have hne : s.cursor.val ≠ 19 := fun h => hlast (Fin.ext h)
      rw [State.afterFeed_cursor_val]
      omega
    rw [← htake, State.waiting, hcursor]
    simp [State.emission, streamOf, hlast]

/-! ### Taking bytes -/

/-- FEED and RX have the same state effects and emit the same frame (R140, R230). -/
theorem exec_of_byteTaken {i : Instr} {b : Byte} {s : State} (hwf : wellFormedCfg s.cfg)
    (hb : byteTaken i = some b) :
    ∃ r, exec i s = .next ((s.afterFeed b).report r) ∧ emittedFrame r = s.emission b := by
  cases i with
  | feed c =>
    cases hb
    exact ⟨_, exec_feed_eq_next.2 ⟨hwf, rfl⟩, rfl⟩
  | rx c =>
    cases hb
    exact ⟨_, exec_rx_eq_next.2 ⟨hwf, rfl⟩, by simp [emittedFrame, Function.comp_def]⟩
  | check _ | extract _ | decode _ | encode _ | reset => cases hb

/-- The eight operand bits of FEED and RX are their byte (R102, R104). -/
theorem decode_encode_of_byteTaken {i : Instr} {b : Byte} (hb : byteTaken i = some b) :
    decode (encode i) = .ok i := by
  cases i with
  | feed c => exact congrArg (fun v => Except.ok (Instr.feed v)) (BitVec.setWidth_eq c)
  | rx c => exact congrArg (fun v => Except.ok (Instr.rx v)) (BitVec.setWidth_eq c)
  | check _ | extract _ | decode _ | encode _ | reset => cases hb

theorem step_of_byteTaken {i : Instr} {b : Byte} {s : State} {rest : List Request} (hwf : wellFormedCfg s.cfg)
    (hb : byteTaken i = some b) (hreq : s.requests = encode i :: rest) :
    ∃ r, step s = .next ((({ s with requests := rest } : State).afterFeed b).report r) ∧
      emittedFrame r = s.emission b := by
  rw [step_eq_exec_of_decode hreq (decode_encode_of_byteTaken hb)]
  exact exec_of_byteTaken (s := { s with requests := rest }) hwf hb

theorem takeBytes_nil {bs : List Byte} : TakeBytes [] bs ↔ bs = [] := by
  simp [TakeBytes]

theorem takeBytes_cons {i : Instr} {is : List Instr} {bs : List Byte} :
    TakeBytes (i :: is) bs ↔ ∃ b bs', bs = b :: bs' ∧ byteTaken i = some b ∧ TakeBytes is bs' := by
  cases bs with
  | nil => simp [TakeBytes]
  | cons b bs => simp [TakeBytes]

theorem emittedFrames_cons (r : Result) (rs : List Result) :
    emittedFrames (r :: rs) = (emittedFrame r).toList ++ emittedFrames rs := by
  cases h : emittedFrame r with
  | none => simp [emittedFrames, h]
  | some f => simp [emittedFrames, h]

theorem emittedFrames_append (rs rs' : List Result) :
    emittedFrames (rs ++ rs') = emittedFrames rs ++ emittedFrames rs' := List.filterMap_append

theorem streamOf_cons (f : Frame) (fs : List Frame) : streamOf (f :: fs) = f.toList ++ streamOf fs := rfl

theorem streamOf_append (fs gs : List Frame) : streamOf (fs ++ gs) = streamOf fs ++ streamOf gs :=
  List.flatMap_append

theorem streamOf_length (fs : List Frame) : (streamOf fs).length = 20 * fs.length := by
  simp [streamOf, List.length_flatMap, Nat.mul_comm]

/-- A run of FEEDs and RXs, from any cursor, loses, adds and moves no byte: `State.emission_append_waiting` along the
run (R61). -/
theorem runFor_takeBytes {s : State} {is : List Instr} {bs : List Byte} (hwf : wellFormedCfg s.cfg)
    (htake : TakeBytes is bs) (hreq : s.requests = is.map encode) :
    ∃ t rs, runFor is.length s = .next t ∧ t.results = s.results ++ rs ∧
      streamOf (emittedFrames rs) ++ t.waiting = s.waiting ++ bs := by
  induction is generalizing s bs with
  | nil =>
    obtain rfl := takeBytes_nil.1 htake
    exact ⟨s, [], rfl, by simp, by simp [emittedFrames, streamOf]⟩
  | cons i is ih =>
    obtain ⟨b, bs, rfl, hb, htake⟩ := takeBytes_cons.1 htake
    obtain ⟨r, hstep, hemits⟩ := step_of_byteTaken hwf hb hreq
    obtain ⟨t, rs, hrun, hresults, hstream⟩ :=
      ih (s := (({ s with requests := is.map encode } : State).afterFeed b).report r) hwf htake rfl
    refine ⟨t, r :: rs, (runFor_succ_of_next hstep).trans hrun, by simpa using hresults, ?_⟩
    calc streamOf (emittedFrames (r :: rs)) ++ t.waiting
        = streamOf (s.emission b).toList ++ (streamOf (emittedFrames rs) ++ t.waiting) := by
          rw [emittedFrames_cons, hemits, streamOf_append, List.append_assoc]
      _ = streamOf (s.emission b).toList ++ (s.afterFeed b).waiting ++ bs := by
          rw [hstream, ← List.append_assoc]
          rfl
      _ = s.waiting ++ b :: bs := by
          rw [State.emission_append_waiting, List.append_assoc, List.singleton_append]

/-! ### The stream cut into frames -/

/-- Fewer than twenty bytes make no frame. -/
theorem cutFrames_of_short {bs : List Byte} (h : bs.length < 20) (fuel : Nat) : cutFrames fuel bs = [] := by
  cases fuel with
  | zero => rfl
  | succ fuel => exact dif_neg (by rw [List.length_take]; omega)

/-- A frame at the head of the stream is the first one cut. -/
theorem cutFrames_frame_append (f : Frame) (bs : List Byte) (fuel : Nat) :
    cutFrames (fuel + 1) (f.toList ++ bs) = f :: cutFrames fuel bs := by
  have htake : (f.toList ++ bs).take 20 = f.toList := List.take_left' f.length_toList
  have hdrop : (f.toList ++ bs).drop 20 = bs := List.drop_left' f.length_toList
  rw [cutFrames, dif_pos (by rw [htake, f.length_toList]), hdrop]
  exact congrArg (· :: cutFrames fuel bs) (Vector.toList_inj.1 htake)

/-- Cutting gives back the frames laid end to end, and leaves out a rest too short for one more (R61). -/
theorem cutFrames_streamOf_append {fs : List Frame} {rest : List Byte} {fuel : Nat} (hrest : rest.length < 20)
    (hfuel : fs.length ≤ fuel) : cutFrames fuel (streamOf fs ++ rest) = fs := by
  induction fs generalizing fuel with
  | nil => exact cutFrames_of_short hrest fuel
  | cons f fs ih =>
    cases fuel with
    | zero => cases hfuel
    | succ fuel =>
      rw [streamOf_cons, List.append_assoc, cutFrames_frame_append, ih (Nat.le_of_succ_le_succ hfuel)]

/-- Settles O12: nothing waits at cursor 0, so the bytes taken are the frames emitted and fewer than twenty that wait;
cutting them gives those frames back, and the cursor is the length of the rest. -/
theorem emittedFramesAreTheStreamCut : Obligations.EmittedFramesAreTheStreamCut := by
  unfold Obligations.EmittedFramesAreTheStreamCut
  intro s is bs hwf hzero htake hreq
  obtain ⟨t, rs, hrun, hresults, hstream⟩ := runFor_takeBytes hwf htake hreq
  rw [State.waiting_of_cursor_zero hzero, List.nil_append] at hstream
  have hlength : 20 * (emittedFrames rs).length + t.cursor.val = bs.length := by
    rw [← hstream, List.length_append, streamOf_length, State.waiting_length]
  have hlt := t.cursor.isLt
  have hcut : cutFrames bs.length bs = emittedFrames rs := by
    conv_lhs => rw [← hstream]
    exact cutFrames_streamOf_append (by rwa [State.waiting_length]) (by rw [hstream]; omega)
  exact ⟨t, hrun, by rw [hresults, emittedFrames_append, hcut], by omega⟩

end Sys2Proof.Machine
end

