-- ==== Sys2Proof/Proofs/Encoding.lean ====
section
/-! SUPPORT. The statements of 30_encoding.md. Decoder and encoder rest on two facts: every operation is a select with
an operand of its width (`Instr.exists_withOperand`), and the request of that select and operand is the operation's
encoding and decodes to it (`encode_withOperand`, `decode_select`). -/

namespace Sys2Proof

/-! ### The 25 bits of a DesiredState (R105) -/

theorem ofBool_getLsbD {w : Nat} (v : BitVec w) (i : Nat) : BitVec.ofBool (v.getLsbD i) = v.extractLsb' i 1 := by
  ext j hj
  obtain rfl : j = 0 := by omega
  simp

/-- Unpacking the packed fields of a DesiredState gives each of them back. -/
theorem desiredState_ofBits_bits (d : DesiredState) : DesiredState.ofBits d.bits = d := by
  have hmode : d.bits.extractLsb' 0 3 = d.modeReq.bits := BitVec.extractLsb'_append_eq_right
  have hfan : d.bits.extractLsb' 3 3 = d.fanReq.bits := by
    simp (disch := omega) only [DesiredState.bits, BitVec.extractLsb'_append_eq_of_le, Nat.sub_self,
      BitVec.extractLsb'_append_eq_right]
  have htemp : d.bits.extractLsb' 9 16 = d.tempQ88 := by
    simp (disch := omega) only [DesiredState.bits, BitVec.extractLsb'_append_eq_of_le, Nat.reduceSub,
      BitVec.extractLsb'_eq_self]
  obtain ⟨hvswing, hhswing, hpresent⟩ :
      d.bits.getLsbD 6 = d.vswing ∧ d.bits.getLsbD 7 = d.hswing ∧ d.bits.getLsbD 8 = d.tempPresent := by
    simp only [DesiredState.bits, BitVec.getLsbD_append]
    simp
  simp only [DesiredState.ofBits, hmode, hfan, htemp, hvswing, hhswing, hpresent, modeReq_ofBits_bits,
    fanReq_ofBits_bits]

/-- Packing what 25 bits unpack to puts the six slices together again. -/
theorem desiredState_bits_ofBits (v : BitVec 25) : (DesiredState.ofBits v).bits = v := by
  simp only [DesiredState.bits, DesiredState.ofBits, modeReq_bits_ofBits, fanReq_bits_ofBits, ofBool_getLsbD]
  simp (disch := rfl) only [BitVec.extractLsb'_append_extractLsb'_eq_extractLsb']
  exact BitVec.extractLsb'_eq_self

/-- `mode_req` is bits [2:0], read as a number. -/
theorem toNat_modeBits (v : BitVec 25) : (v.extractLsb' 0 3).toNat = v.toNat % 8 := by
  simp

/-- `fan_req` is bits [5:3], read as a number. -/
theorem toNat_fanBits (v : BitVec 25) : (v.extractLsb' 3 3).toNat = v.toNat / 8 % 8 := by
  simp [Nat.shiftRight_eq_div_pow]

/-- `temp_q88` is bits [24:9], read as a number; there is no bit above it. -/
theorem toNat_tempBits (v : BitVec 25) : (v.extractLsb' 9 16).toNat = v.toNat / 512 := by
  have hlt := v.isLt
  rw [BitVec.extractLsb'_toNat, Nat.shiftRight_eq_div_pow]
  omega

theorem modeReq_ofBits_eq_reserved7 (v : BitVec 3) : ModeReq.ofBits v = .reserved7 ↔ v.toNat = 7 := by
  revert v; decide

theorem fanReq_ofBits_eq_reserved (v : BitVec 3) :
    FanReq.ofBits v = .reserved6 ∨ FanReq.ofBits v = .reserved7 ↔ v.toNat = 6 ∨ v.toNat = 7 := by
  revert v; decide

/-! ### Decoder and encoder (R102 to R104) -/

theorem decode_select (o : Op) (v : BitVec o.operandWidth) :
    decode ⟨o.bits, o.operandWidth, v⟩ = .ok (o.withOperand v) := by
  simp only [decode, op_ofBits_bits, if_true]

/-- What decodes is a select with an operand of the width it demands (R103). -/
theorem exists_select_of_decode {r : Request} {i : Instr} (h : decode r = .ok i) :
    ∃ (o : Op) (v : BitVec o.operandWidth), r = ⟨o.bits, o.operandWidth, v⟩ ∧ i = o.withOperand v := by
  obtain ⟨op, w, v⟩ := r
  unfold decode at h
  split at h
  · cases h
  · next o hop =>
    split at h
    · next hw =>
      dsimp only at hw
      subst hw
      cases h
      exact ⟨o, v, by rw [op_bits_of_ofBits hop], rfl⟩
    · cases h

theorem encode_withOperand (o : Op) (v : BitVec o.operandWidth) :
    encode (o.withOperand v) = ⟨o.bits, o.operandWidth, v⟩ := by
  cases o with
  | feed | rx => exact congrArg (Request.mk _ 8) (BitVec.setWidth_eq v)
  | check | extract | decode =>
    exact congrArg (Request.mk _ 160) ((frameBits_frameOfBits _).trans (BitVec.setWidth_eq v))
  | encode => exact congrArg (Request.mk _ 25) ((desiredState_bits_ofBits _).trans (BitVec.setWidth_eq v))
  | reset => exact congrArg (Request.mk _ 0) (BitVec.eq_nil v).symm

/-- Every operation is its select with some operand, its byte, its frame or its DesiredState packed (R104). -/
theorem Instr.exists_withOperand (i : Instr) : ∃ (o : Op) (v : BitVec o.operandWidth), i = o.withOperand v := by
  cases i with
  | feed b => exact ⟨.feed, b, congrArg Instr.feed (BitVec.setWidth_eq b).symm⟩
  | rx b => exact ⟨.rx, b, congrArg Instr.rx (BitVec.setWidth_eq b).symm⟩
  | check f => exact ⟨.check, frameBits f, congrArg Instr.check (frameOfBits_frameBits f).symm⟩
  | extract f => exact ⟨.extract, frameBits f, congrArg Instr.extract (frameOfBits_frameBits f).symm⟩
  | decode f => exact ⟨.decode, frameBits f, congrArg Instr.decode (frameOfBits_frameBits f).symm⟩
  | encode d => exact ⟨.encode, d.bits, congrArg Instr.encode (desiredState_ofBits_bits d).symm⟩
  | reset => exact ⟨.reset, 0, rfl⟩

/-- Settles O32: an operation is a select with an operand; its encoding is the request of the two, which decodes. -/
theorem decodeGivesBackWhatIsEncoded : Obligations.DecodeGivesBackWhatIsEncoded := by
  unfold Obligations.DecodeGivesBackWhatIsEncoded
  intro i
  obtain ⟨o, v, rfl⟩ := i.exists_withOperand
  rw [encode_withOperand, decode_select]

/-- Settles O33: a request that decodes is a select with an operand of its width, which the encoder gives back. -/
theorem eachOperationHasOneRequest : Obligations.EachOperationHasOneRequest := by
  unfold Obligations.EachOperationHasOneRequest
  intro r i h
  obtain ⟨o, v, rfl, rfl⟩ := exists_select_of_decode h
  exact encode_withOperand o v

/-! ### Operands as the host writes them (R104, R105) -/

theorem decode_encodeOperand (v : BitVec 25) :
    decode ⟨0b100, 25, v⟩ = .ok (.encode (DesiredState.ofBits v)) :=
  (decode_select .encode v).trans
    (congrArg (fun w => Except.ok (Instr.encode (DesiredState.ofBits w))) (BitVec.setWidth_eq v))

/-- Settles O35: the decoder reads each field from its own bits, and the number tables are R105's. -/
theorem desiredStateBitLayout : Obligations.DesiredStateBitLayout := by
  unfold Obligations.DesiredStateBitLayout
  refine fun v => ⟨DesiredState.ofBits v, decode_encodeOperand v, ?_, ?_, rfl, rfl, rfl, toNat_tempBits v⟩
  · rw [← toNat_modeBits]
    rfl
  · rw [← toNat_fanBits]
    rfl

/-- Settles O36: frame words unpack, and payload words are packed, with byte `i` at bits [8i+7:8i]. -/
theorem bytesArePackedLittleFirst : Obligations.BytesArePackedLittleFirst := by
  unfold Obligations.BytesArePackedLittleFirst
  refine ⟨fun v => ?_, fun p => ⟨payloadBits p, rfl, fun i => ?_⟩⟩
  · refine ⟨frameOfBits (v.setWidth 160), decode_select .check v, decode_select .extract v, decode_select .decode v, ?_⟩
    rw [BitVec.setWidth_eq]
    exact frameOfBits_byte v
  · rw [payloadBits_toNat, packBytes_byte p.toList i.val (by simp)]
    simp

/-- Settles O34: the five requests are written out, so the decoder computes on them. -/
theorem writtenRequestsDecode : Obligations.WrittenRequestsDecode := by
  unfold Obligations.WrittenRequestsDecode
  exact ⟨by decide, by decide, by decide, by decide, by decide⟩

end Sys2Proof

namespace Sys2Proof.Machine

/-! ### Requests and the step (R102, R103, R106) -/

theorem step_eq_refused_of_decode {s : State} {r : Request} {rest : List Request} {e : DecodeError}
    (hreq : s.requests = r :: rest) (hdec : decode r = .error e) : step s = .refused (refusalOf e) := by
  simp only [step, hreq, hdec]

theorem decode_of_reservedSelect {r : Request} (hop : r.op = 0b111) : decode r = .error .reservedOp := by
  unfold decode
  rw [hop]
  rfl

theorem decode_of_wrongWidth {r : Request} (o : Op) (hop : r.op = o.bits) (hw : r.width ≠ o.operandWidth) :
    decode r = .error .badOperand := by
  simp only [decode, hop, op_ofBits_bits, if_neg hw]

/-- Settles O5: what a table word decodes to is what its request decodes to, and the step does that request. -/
theorem tableWordRunsNext : Obligations.TableWordRunsNext := by
  unfold Obligations.TableWordRunsNext
  intro s nbits w i h
  unfold decodeTableWord at h
  split at h
  · next hdec =>
    cases h
    exact step_eq_exec_of_decode (State.withFetchWord_requests s nbits w) hdec
  · cases h

/-- Settles O6: the decoder rejects the select and the width, before the operation and its configuration check. -/
theorem reservedSelectAndWrongWidthAreRefused : Obligations.ReservedSelectAndWrongWidthAreRefused := by
  unfold Obligations.ReservedSelectAndWrongWidthAreRefused
  intro s r rest hreq
  have hbad (o : Op) (hop : r.op = o.bits) (hw : r.width ≠ o.operandWidth) : step s = .refused .badOperand :=
    step_eq_refused_of_decode hreq (decode_of_wrongWidth o hop hw)
  refine ⟨fun hop => step_eq_refused_of_decode hreq (decode_of_reservedSelect hop), ?_, ?_, hbad .encode, hbad .reset⟩
  · rintro (hop | hop)
    · exact hbad .feed hop
    · exact hbad .rx hop
  · rintro (hop | hop | hop)
    · exact hbad .check hop
    · exact hbad .extract hop
    · exact hbad .decode hop

/-- Which 25-bit values hold a reserved value (R106). -/
theorem hasReservedValue_ofBits (v : BitVec 25) : hasReservedValue (DesiredState.ofBits v) = true ↔
    v.toNat % 8 = 7 ∨ v.toNat / 8 % 8 = 6 ∨ v.toNat / 8 % 8 = 7 := by
  rw [← toNat_modeBits, ← toNat_fanBits, ← modeReq_ofBits_eq_reserved7, ← fanReq_ofBits_eq_reserved]
  simp only [hasReservedValue, DesiredState.ofBits, Bool.or_eq_true, beq_iff_eq, or_assoc]

theorem exec_encode_of_reserved {s : State} {d : DesiredState} (hwf : wellFormedCfg s.cfg)
    (hd : hasReservedValue d = true) : exec (.encode d) s = .refused .reservedValue :=
  (whenConfigured_of_wf hwf _).trans (if_pos hd)

/-- Settles O7: the request decodes to an ENCODE, which refuses a reserved value and otherwise returns its payload. -/
theorem reservedDesiredStateIsRefused : Obligations.ReservedDesiredStateIsRefused := by
  unfold Obligations.ReservedDesiredStateIsRefused
  intro s rest v hwf hreq
  rw [step_eq_exec_of_decode hreq (decode_encodeOperand v)]
  refine ⟨fun hreserved => ?_, fun hmode hfan => ?_⟩
  · exact exec_encode_of_reserved (s := { s with requests := rest }) hwf ((hasReservedValue_ofBits v).2 hreserved)
  · have hlegal : hasReservedValue (DesiredState.ofBits v) = false := by
      rw [← Bool.not_eq_true, hasReservedValue_ofBits]
      omega
    exact ⟨_, exec_encode_eq_next.2 ⟨hwf, hlegal, rfl⟩⟩

/-! ### Results (R107, R108) -/

/-- Where each field of a SemanticState but `power` stands in its 26 bits (R107). -/
theorem semanticBits_slices (st : SemanticState) :
    (semanticBits st).extractLsb' 1 8 = st.curTemp ∧
    (semanticBits st).extractLsb' 9 3 = modeNumber st.mode ∧
    (semanticBits st).extractLsb' 12 3 = fanNumber st.fan ∧
    (semanticBits st).extractLsb' 15 3 = airflowNumber st.vflow ∧
    (semanticBits st).extractLsb' 18 3 = airflowNumber st.hflow ∧
    (semanticBits st).extractLsb' 21 5 = st.unk := by
  simp (disch := omega) only [semanticBits, BitVec.extractLsb'_append_eq_of_le, Nat.reduceSub,
    BitVec.extractLsb'_append_eq_of_add_le, BitVec.extractLsb'_eq_self, and_self]

theorem semanticBits_getLsbD_zero (st : SemanticState) :
    (semanticBits st).getLsbD 0 = decide (st.power = .on) := by
  have hbit : (semanticBits st).getLsbD 0 = (powerNumber st.power).getLsbD 0 := by
    simp only [semanticBits, BitVec.getLsbD_append]
    simp
  rw [hbit]
  cases st.power <;> rfl

/-- Settles O37: each field is a slice of the record's bits, with its table's number, and no record has QUIET. -/
theorem semanticStateBitLayout : Obligations.SemanticStateBitLayout := by
  unfold Obligations.SemanticStateBitLayout
  intro s f st h
  obtain ⟨-, hst⟩ := returns_extract.1 h
  have hquiet : st.fan ≠ .quiet := hst ▸ legalRecord_extractFields s.cfg f
  obtain ⟨hcurTemp, hmode, hfan, hvflow, hhflow, hunk⟩ := semanticBits_slices st
  refine ⟨semanticBits st, rfl, semanticBits_getLsbD_zero st, hcurTemp, ?_, ?_, ?_, ?_, ?_, hunk⟩
  · rw [hmode]
    cases st.mode <;> rfl
  · rw [hfan]
    cases st.fan <;> rfl
  · rw [hfan]
    revert hquiet
    cases st.fan <;> decide
  · rw [hvflow]
    cases st.vflow <;> rfl
  · rw [hhflow]
    cases st.hflow <;> rfl

/-- The `emitted` bit of FEED and RX (R108, R140). -/
theorem State.emission_bit (s : State) (b : Byte) :
    BitVec.ofBool (s.emission b).isSome = if s.cursor.val = 19 then 1 else 0 := by
  unfold State.emission
  by_cases h : s.cursor = 19
  · simp [h]
  · have hv : s.cursor.val ≠ 19 := fun e => h (Fin.ext e)
    simp [h, hv]

/-- The `valid` bit of CHECK (R108, R161). -/
theorem ofBool_frameValid (f : Frame) :
    BitVec.ofBool (frameValid f) = if f[19].toNat = sumSlice f 0 19 % 256 then 1 else 0 := by
  simp only [← frameValid_iff]
  cases frameValid f <;> rfl

/-- The `status` bit of DECODE and RX (R108, R169). -/
theorem statusBit_decodeFrame (cfg : Cfg) (f : Frame) :
    statusBit (decodeFrame cfg f) = if f[19].toNat = sumSlice f 0 19 % 256 then 0 else 1 := by
  simp only [← frameValid_iff]
  cases hv : frameValid f with
  | true => rw [decodeFrame_of_valid hv]; rfl
  | false => rw [decodeFrame_of_invalid hv]; rfl

/-- Settles O38: the bits are functions of the cursor and of the checksum alone. -/
theorem statusBitsOfResults : Obligations.StatusBitsOfResults := by
  unfold Obligations.StatusBitsOfResults
  refine fun s hwf => ⟨?_, fun b hlast => ?_, fun f => ?_, fun f => ?_⟩
  · rintro b i (rfl | rfl)
    · exact ⟨_, _, exec_feed_eq_next.2 ⟨hwf, rfl⟩, rfl, congrArg some (s.emission_bit b)⟩
    · refine ⟨_, _, exec_rx_eq_next.2 ⟨hwf, rfl⟩, rfl, ?_⟩
      rw [emittedBit, Option.isSome_map, s.emission_bit b]
  · have hemits : s.emission b = some (s.filledBuf b) := if_pos (Fin.ext hlast)
    refine ⟨_, _, s.filledBuf b, exec_rx_eq_next.2 ⟨hwf, rfl⟩, rfl, ?_, ?_⟩
    · rw [hemits]
      rfl
    · rw [hemits]
      exact congrArg some (statusBit_decodeFrame s.cfg _)
  · exact ⟨_, returns_check.2 ⟨hwf, rfl⟩, congrArg some (ofBool_frameValid f)⟩
  · exact ⟨_, returns_decode.2 ⟨hwf, rfl⟩, congrArg some (statusBit_decodeFrame s.cfg f)⟩

end Sys2Proof.Machine

namespace Sys2Proof.Machine.Asm

/-! ### Pseudo-instructions (R113) -/

theorem statement_feed_word (w : List Char) :
    statement "FEED".toList [.word w] = (byteLiteral w).map fun b => [.feed b] := rfl

theorem statement_rx_word (w : List Char) :
    statement "RX".toList [.word w] = (byteLiteral w).map fun b => [.rx b] := rfl

theorem statement_check (ts : List Token) :
    statement "CHECK".toList ts = (frameOperand ts).map fun f => [.check f] := rfl

theorem statement_feeds (ts : List Token) :
    statement "FEEDS".toList ts = (byteList ts).map (·.map .feed) := rfl

theorem statement_rxs (ts : List Token) : statement "RXS".toList ts = (byteList ts).map (·.map .rx) := rfl

theorem statement_feedframe (ts : List Token) :
    statement "FEEDFRAME".toList ts = (frameOperand ts).map fun f => f.toList.map .feed := rfl

theorem statement_rxframe (ts : List Token) :
    statement "RXFRAME".toList ts = (frameOperand ts).map fun f => f.toList.map .rx := rfl

/-- Words separated by commas are read back as those words (R113). -/
theorem commaWords_intersperse {ws : List (List Char)} (hne : ws ≠ []) :
    commaWords ((ws.map Token.word).intersperse .comma) = some (ws, []) := by
  induction ws with
  | nil => exact absurd rfl hne
  | cons w ws ih =>
    cases ws with
    | nil => rfl
    | cons w' ws =>
      rw [List.map_cons, List.map_cons, List.intersperse_cons_cons, commaWords]
      rw [List.map_cons] at ih
      rw [ih (List.cons_ne_nil w' ws)]
      rfl

theorem byteLiterals_eq_mapM (ws : List (List Char)) : byteLiterals ws = ws.mapM byteLiteral := by
  induction ws with
  | nil => rfl
  | cons w ws ih =>
    rw [byteLiterals, ih, List.mapM_cons]
    cases byteLiteral w with
    | none => rfl
    | some b => cases ws.mapM byteLiteral <;> rfl

/-- A byte list is its words' literals (R113). -/
theorem byteList_intersperse {ws : List (List Char)} (hne : ws ≠ []) :
    byteList ((ws.map Token.word).intersperse .comma) = ws.mapM byteLiteral := by
  rw [byteList, commaWords_intersperse hne]
  exact byteLiterals_eq_mapM ws

/-- One operation per byte: doing each word's line and joining them is mapping the operation over the bytes, and an
error in one word is an error of all. -/
theorem mapM_byteLiteral_flatten (op : Byte → Instr) (ws : List (List Char)) :
    (ws.mapM fun w => (byteLiteral w).map fun b => [op b]).map List.flatten =
      (ws.mapM byteLiteral).map (·.map op) := by
  induction ws with
  | nil => rfl
  | cons w ws ih =>
    rw [List.mapM_cons, List.mapM_cons]
    cases byteLiteral w with
    | none => rfl
    | some b =>
      have hcons := congrArg (Option.map (op b :: ·)) ih
      simp only [Option.map_map] at hcons
      simp only [bind_pure_comp, Option.map_some, Option.bind_eq_bind, Option.bind_some, Option.map_eq_map,
        Option.map_map]
      exact hcons

/-- Settles O39: the list of words is read back from its commas and each word gives one operation; a frame operand
stands for one frame, whatever the mnemonic; and comparing with each of the eleven mnemonics fails for any other. -/
theorem pseudoInstructionsExpand : Obligations.PseudoInstructionsExpand := by
  unfold Obligations.PseudoInstructionsExpand
  refine ⟨fun ws hne => ⟨?_, ?_⟩, fun ts f hcheck => ?_, fun m ts hm => ?_⟩
  · simp only [statement_feeds, statement_feed_word, byteList_intersperse hne, mapM_byteLiteral_flatten]
  · simp only [statement_rxs, statement_rx_word, byteList_intersperse hne, mapM_byteLiteral_flatten]
  · rw [statement_check] at hcheck
    have hframe : frameOperand ts = some f := by simpa using hcheck
    rw [statement_feedframe, statement_rxframe, hframe]
    exact ⟨rfl, rfl⟩
  · simp only [List.map_cons, List.map_nil, List.mem_cons, List.not_mem_nil, or_false, not_or] at hm
    obtain ⟨hfeed, hrx, hcheck, hextract, hdecode, hencode, hreset, hfeeds, hrxs, hfeedframe, hrxframe⟩ := hm
    simp only [statement, if_neg, hfeed, hrx, hcheck, hextract, hdecode, hencode, hreset, hfeeds, hrxs, hfeedframe,
      hrxframe, not_false_eq_true]

end Sys2Proof.Machine.Asm
end

