-- ==== Sys2Proof/Proofs/Reassembler.lean ====
section
/-! SUPPORT. The statements of 40_reassembler.md: RESET (R143), one FEED (R140), the emission count of a run (R141),
that no byte has a say in where frames begin (R142), and that a run only adds results (R144). -/

namespace Sys2Proof.Machine

/-! ### RESET -/

/-- Settles O1: power-on and RESET set the cursor to 0 and take `cfg` as it is. -/
theorem powerOnAndResetLeaveTheCursorAtZero : Obligations.PowerOnAndResetLeaveTheCursorAtZero := by
  unfold Obligations.PowerOnAndResetLeaveTheCursorAtZero
  refine ⟨fun cfg => ⟨State.powerOn_cursor cfg, State.powerOn_cfg cfg⟩, ⟨Cfg.testing, rfl⟩, fun s hwf => ?_⟩
  exact ⟨_, exec_reset_eq_next.2 ⟨hwf, rfl⟩, by simp, by simp⟩

/-- Settles O2: RESET's mark is the only result added, and it carries no frame. -/
theorem resetChangesNothingElse : Obligations.ResetChangesNothingElse := by
  unfold Obligations.ResetChangesNothingElse
  intro s t h
  obtain ⟨-, rfl⟩ := exec_reset_eq_next.1 h
  have hresults : (s.clearReassembler.report .reset).results = s.results ++ [.reset] := by simp
  refine ⟨by simp, by simp, hresults, ?_⟩
  rw [hresults, emittedFrames_append]
  exact List.append_nil _

/-! ### One byte -/

theorem State.emission_of_lt {s : State} (h : s.cursor.val < 19) (b : Byte) : s.emission b = none :=
  if_neg fun hlast => absurd (congrArg Fin.val hlast) h.ne

theorem State.emission_of_last {s : State} (h : s.cursor.val = 19) (b : Byte) :
    s.emission b = some (s.filledBuf b) := if_pos (Fin.ext h)

/-- Settles O9: FEED writes its byte at the cursor, and only the cursor decides whether a frame is emitted. -/
theorem feedTakesOneByte : Obligations.FeedTakesOneByte := by
  unfold Obligations.FeedTakesOneByte
  intro s b hwf
  refine ⟨_, exec_feed_eq_next.2 ⟨hwf, rfl⟩, s.filledBuf_getElem b, fun hlt => ?_, fun hlast => ?_, rfl, rfl, rfl⟩
  · rw [State.report_cursor, State.report_results, State.afterFeed_cursor_val, State.emission_of_lt hlt]
    exact ⟨Nat.mod_eq_of_lt (by omega), rfl⟩
  · rw [State.report_cursor, State.report_results, State.afterFeed_cursor_val, State.emission_of_last hlast, hlast]
    exact ⟨rfl, rfl⟩

/-- A completed FEED or RX takes its byte and returns an `emitted` bit that the cursor alone decides (R140, R230). -/
theorem exec_eq_next_of_byteTaken {i : Instr} {b : Byte} {s t : State} (hb : byteTaken i = some b)
    (h : exec i s = .next t) :
    ∃ r, t = (s.afterFeed b).report r ∧ emittedBit r = some (if s.cursor.val = 19 then 1 else 0) := by
  cases i with
  | feed c =>
    cases hb
    exact ⟨_, (exec_feed_eq_next.1 h).2, congrArg some (s.emission_bit b)⟩
  | rx c =>
    cases hb
    refine ⟨_, (exec_rx_eq_next.1 h).2, ?_⟩
    rw [emittedBit, Option.isSome_map, s.emission_bit b]
  | check _ | extract _ | decode _ | encode _ | reset => cases hb

/-- Settles O10: the cursor after the byte, and the `emitted` bit, are functions of the cursor before it. -/
theorem nothingResynchronises : Obligations.NothingResynchronises := by
  unfold Obligations.NothingResynchronises
  intro s s' i i' b b' t t' hb hb' hcursor h h'
  obtain ⟨r, rfl, hr⟩ := exec_eq_next_of_byteTaken hb h
  obtain ⟨r', rfl, hr'⟩ := exec_eq_next_of_byteTaken hb' h'
  refine ⟨by simp [hcursor], r, r', rfl, rfl, ?_⟩
  rw [hr, hr', hcursor]

/-! ### A run of bytes -/

theorem takeBytes_length {is : List Instr} {bs : List Byte} (h : TakeBytes is bs) : bs.length = is.length := by
  simpa using (congrArg List.length h).symm

/-- A run of FEEDs and RXs adds one result for each, and which of them emit is counted from the cursor (R141). -/
theorem runFor_takeBytes_positions {s : State} {is : List Instr} {bs : List Byte} (hwf : wellFormedCfg s.cfg)
    (htake : TakeBytes is bs) (hreq : s.requests = is.map encode) :
    ∃ t rs, runFor is.length s = .next t ∧ t.results = s.results ++ rs ∧ rs.length = is.length ∧
      ∀ k r, rs[k]? = some r → ((emittedFrame r).isSome = true ↔ (s.cursor.val + (k + 1)) % 20 = 0) := by
  induction is generalizing s bs with
  | nil => exact ⟨s, [], rfl, by simp, rfl, by simp⟩
  | cons i is ih =>
    obtain ⟨b, bs, rfl, hb, htake⟩ := takeBytes_cons.1 htake
    obtain ⟨r, hstep, hemits⟩ := step_of_byteTaken hwf hb hreq
    obtain ⟨t, rs, hrun, hresults, hlength, hpos⟩ :=
      ih (s := (({ s with requests := is.map encode } : State).afterFeed b).report r) hwf htake rfl
    refine ⟨t, r :: rs, (runFor_succ_of_next hstep).trans hrun, by simpa using hresults,
      congrArg (· + 1) hlength, fun k r' hk => ?_⟩
    cases k with
    | zero =>
      obtain rfl : r = r' := by simpa using hk
      rw [hemits]
      exact s.emission_isSome b
    | succ k =>
      have hcursor : (s.afterFeed b).cursor.val = (s.cursor.val + 1) % 20 := s.afterFeed_cursor_val b
      have htail : _ ↔ ((s.afterFeed b).cursor.val + (k + 1)) % 20 = 0 := hpos k r' hk
      rw [htail, hcursor]
      omega

/-- Settles O11: no byte is lost (`runFor_takeBytes`), so the frames emitted have twenty bytes each of the `c0 + n` that
waited or were taken, and the cursor counts the rest, fewer than twenty. -/
theorem emissionCountLaw : Obligations.EmissionCountLaw := by
  unfold Obligations.EmissionCountLaw
  intro s is bs hwf htake hreq
  obtain ⟨t, rs, hrun, hresults, hlength, hpos⟩ := runFor_takeBytes_positions hwf htake hreq
  obtain ⟨t', rs', hrun', hresults', hstream⟩ := runFor_takeBytes hwf htake hreq
  obtain rfl : t = t' := next_eq_next.1 (hrun'.symm.trans hrun)
  obtain rfl : rs = rs' := List.append_cancel_left (hresults.symm.trans hresults')
  have hcount : 20 * (emittedFrames rs).length + t.cursor.val = s.cursor.val + is.length := by
    have h := congrArg List.length hstream
    rwa [List.length_append, List.length_append, streamOf_length, State.waiting_length, State.waiting_length,
      takeBytes_length htake] at h
  have hlt := t.cursor.isLt
  exact ⟨t, rs, hrun, hresults, hlength, by omega, hpos, by omega⟩

/-! ### The record of results only grows -/

/-- A completed operation adds one result to the record. -/
theorem exec_results {i : Instr} {s t : State} (h : exec i s = .next t) : ∃ r, t.results = s.results ++ [r] := by
  rcases exec_eq_next_cases h with ⟨b, r, -, rfl⟩ | ⟨-, rfl⟩ | ⟨-, -, r, rfl⟩
  · exact ⟨r, by simp⟩
  · exact ⟨.reset, by simp⟩
  · exact ⟨r, by simp⟩

/-- A step adds one result, or none when it is idle. -/
theorem step_results {s t : State} (h : step s = .next t) :
    ∃ rs, t.results = s.results ++ rs ∧ rs.length ≤ 1 := by
  rcases step_eq_next_cases h with rfl | ⟨_, rest, i, -, -, hexec⟩
  · exact ⟨[], by simp, by simp⟩
  · obtain ⟨r, hr⟩ := exec_results (s := { s with requests := rest }) hexec
    exact ⟨[r], hr, le_rfl⟩

/-- Settles O44: every step only adds results, at most one, so a run of `n` steps adds at most `n`. -/
theorem returnedResultsNeverChange : Obligations.ReturnedResultsNeverChange := by
  unfold Obligations.ReturnedResultsNeverChange
  intro n
  induction n with
  | zero =>
    intro s t h
    obtain rfl : t = s := next_eq_next.1 h
    exact ⟨[], by simp, by simp⟩
  | succ n ih =>
    intro s t h
    obtain ⟨u, hstep, hrun⟩ := runFor_succ_eq_next h
    obtain ⟨rs, hrs, hle⟩ := step_results hstep
    obtain ⟨rs', hrs', hle'⟩ := ih u t hrun
    exact ⟨rs ++ rs', by rw [hrs', hrs, List.append_assoc], by rw [List.length_append]; omega⟩

end Sys2Proof.Machine
end

