-- ==== Sys2Proof/Proofs/Decoder.lean ====
section
/-! SUPPORT. The statements of 41_decoder.md: the checksum CHECK compares with (R160, R161), the fields EXTRACT reads
through their tables (R162 to R168), and DECODE, which checks and then extracts (R169, R171, R174). -/

namespace Sys2Proof.Machine

/-! ### The checksum -/

/-- The integer sum of R160, written out. -/
theorem sumSlice_eq_add (f : Frame) : sumSlice f 0 19 =
    f[0].toNat + f[1].toNat + f[2].toNat + f[3].toNat + f[4].toNat + f[5].toNat + f[6].toNat + f[7].toNat
      + f[8].toNat + f[9].toNat + f[10].toNat + f[11].toNat + f[12].toNat + f[13].toNat + f[14].toNat + f[15].toNat
      + f[16].toNat + f[17].toNat + f[18].toNat := by
  have htake : f.toList.take 19 = List.ofFn fun i : Fin 19 => f[i.val] :=
    List.ext_getElem (by simp) fun i _ _ => by rw [List.getElem_take, Vector.getElem_toList, List.getElem_ofFn]
  rw [sumSlice, List.drop_zero, htake, List.map_ofFn, List.sum_ofFn]
  simp [Fin.sum_univ_castSucc]

/-- Reducing modulo 256 after every byte gives the sum reduced once at the end (R160). -/
theorem foldl_add_mod (bs : List Byte) {a : Nat} (ha : a < 256) :
    bs.foldl (fun n b => (n + b.toNat) % 256) a = (a + (bs.map BitVec.toNat).sum) % 256 := by
  induction bs generalizing a with
  | nil => simpa using (Nat.mod_eq_of_lt ha).symm
  | cons b bs ih =>
    rw [List.foldl_cons, ih (Nat.mod_lt _ (by decide)), List.map_cons, List.sum_cons, Nat.mod_add_mod, Nat.add_assoc]

theorem frameValid_eq_false_iff (f : Frame) : frameValid f = false ↔ f[19].toNat ≠ sumSlice f 0 19 % 256 := by
  rw [← Bool.not_eq_true, frameValid_iff]

/-- One of the bytes 0 to 18 changed moves the sum by less than 256, and byte 19 changed leaves the sum where it was:
either way the two no longer agree. -/
theorem frameValid_set_of_ne {f : Frame} {i : Nat} {b : Byte} (hi : i < 20) (hvalid : frameValid f = true)
    (hb : b ≠ f[i]) : frameValid (f.set i b) = false := by
  have hne : b.toNat ≠ f[i].toNat := mt BitVec.eq_of_toNat_eq hb
  rw [frameValid_iff] at hvalid
  rw [frameValid_eq_false_iff]
  rcases Nat.lt_succ_iff_lt_or_eq.1 hi with hlt | rfl
  · have hsum := sumSlice_set f i hlt b
    have hnew := b.isLt
    have hold := f[i].isLt
    rw [Vector.getElem_set_ne hi (by decide) hlt.ne]
    omega
  · rwa [Vector.getElem_set_self, sumSlice_set_last, ← hvalid]

theorem returns_check_true {f : Frame} {s : State} :
    Returns (.check f) s (.check true) ↔ wellFormedCfg s.cfg = true ∧ frameValid f = true :=
  returns_check.trans (and_congr_right fun _ => eq_comm)

/-- Settles O15: CHECK's answer is `frameValid`, which compares byte 19 with the sum. -/
theorem checkComparesWithTheSum : Obligations.CheckComparesWithTheSum := by
  unfold Obligations.CheckComparesWithTheSum
  intro s f hwf
  refine returns_check.2 ⟨hwf, ?_⟩
  rw [← sumSlice_eq_add, Bool.eq_iff_iff, decide_eq_true_iff, frameValid_iff]

/-- Settles O16: a changed byte moves one side of the comparison and not the other. -/
theorem oneChangedByteInvalidates : Obligations.OneChangedByteInvalidates := by
  unfold Obligations.OneChangedByteInvalidates
  intro s f i b h hb
  obtain ⟨hwf, hvalid⟩ := returns_check_true.1 h
  exact returns_check.2 ⟨hwf, (frameValid_set_of_ne i.isLt hvalid hb).symm⟩

/-! ### DECODE -/

theorem returns_decode_of_valid {f : Frame} {s : State} (hwf : wellFormedCfg s.cfg) (hvalid : frameValid f = true) :
    Returns (.decode f) s (.decode (.ok (extractFields s.cfg f))) :=
  returns_decode.2 ⟨hwf, (decodeFrame_of_valid hvalid).symm⟩

theorem returns_decode_of_invalid {f : Frame} {s : State} (hwf : wellFormedCfg s.cfg)
    (hinvalid : frameValid f = false) : Returns (.decode f) s (.decode (.error .checksumMismatch)) :=
  returns_decode.2 ⟨hwf, (decodeFrame_of_invalid hinvalid).symm⟩

/-- A record comes only from a valid frame (R171, R172). -/
theorem frameValid_of_decodeFrame_ok {cfg : Cfg} {f : Frame} {st : SemanticState}
    (h : decodeFrame cfg f = .ok st) : frameValid f = true := by
  cases hv : frameValid f with
  | true => rfl
  | false =>
    rw [decodeFrame_of_invalid hv] at h
    cases h

/-- Settles O18: validity is the one gate of DECODE and of CHECK, and the sum may be reduced at every byte. -/
theorem checksumLaw : Obligations.ChecksumLaw := by
  unfold Obligations.ChecksumLaw
  refine fun s f hwf => ⟨⟨?_, fun h => ?_⟩, ?_⟩
  · rintro ⟨st, h⟩
    exact returns_check_true.2 ⟨hwf, frameValid_of_decodeFrame_ok (returns_decode.1 h).2.symm⟩
  · exact ⟨_, returns_decode_of_valid hwf (returns_check_true.1 h).2⟩
  · have hfold : (f.toList.take 19).foldl (fun n b => (n + b.toNat) % 256) 0 = sumSlice f 0 19 % 256 :=
      (foldl_add_mod _ (by decide)).trans (by rw [Nat.zero_add]; rfl)
    rw [returns_check_true, and_iff_right hwf, frameValid_iff, hfold, eq_comm]

/-- Settles O25: DECODE of an invalid frame is the mismatch alone, and of a valid one EXTRACT's record. -/
theorem decodeChecksThenExtracts : Obligations.DecodeChecksThenExtracts := by
  unfold Obligations.DecodeChecksThenExtracts
  refine fun s f hwf => ⟨fun hne => ?_, fun hsum => ?_⟩
  · exact returns_decode_of_invalid hwf ((frameValid_eq_false_iff f).2 hne)
  · exact ⟨_, returns_extract.2 ⟨hwf, rfl⟩, returns_decode_of_valid hwf ((frameValid_iff f).2 hsum)⟩

/-! ### The fields of EXTRACT -/

/-- A field of the record and its flag, as the answer of its table gives them: an answer is taken with the flag clear,
no answer is the field's default with the flag set (R95, R162 to R166). -/
structure ReadAs {α : Type} (answer : Option α) (default field : α) (flag : Bool) : Prop where
  field_eq : field = answer.getD default
  flag_eq : flag = answer.isNone

section
variable {α : Type} {answer answer' : Option α} {default field field' : α} {flag flag' : Bool}

/-- The byte is the code of a row that the table decodes to `value`. -/
theorem ReadAs.of_code {lookup : Byte → Option α} {c code : Byte} {value : α}
    (h : ReadAs (lookup c) default field flag) (hc : c = code) (hrow : lookup code = some value) :
    field = value ∧ flag = false := by
  subst hc
  rw [h.field_eq, h.flag_eq, hrow]
  exact ⟨rfl, rfl⟩

theorem ReadAs.of_none (h : ReadAs answer default field flag) (hnone : answer = none) :
    field = default ∧ flag = true := by
  rw [h.field_eq, h.flag_eq, hnone]
  exact ⟨rfl, rfl⟩

theorem ReadAs.congr (h : ReadAs answer default field flag) (h' : ReadAs answer' default field' flag')
    (hanswer : answer = answer') : field = field' ∧ flag = flag' := by
  rw [h.field_eq, h.flag_eq, h'.field_eq, h'.flag_eq, hanswer]
  exact ⟨rfl, rfl⟩

end

section
variable (cfg : Cfg) (f : Frame)

theorem readAs_power : ReadAs (lookupPower cfg f[5]) .off (extractFields cfg f).power
    ((extractFields cfg f).unk.getLsbD 0) := ⟨rfl, unknownFlags_power cfg f⟩

theorem readAs_mode : ReadAs (lookupMode cfg f[7]) .off (extractFields cfg f).mode
    ((extractFields cfg f).unk.getLsbD 1) := ⟨rfl, unknownFlags_mode cfg f⟩

theorem readAs_fan : ReadAs (lookupFan cfg f[8]) .auto (extractFields cfg f).fan
    ((extractFields cfg f).unk.getLsbD 2) := ⟨rfl, unknownFlags_fan cfg f⟩

theorem readAs_vflow : ReadAs (lookupVflow cfg f[9]) .pos1 (extractFields cfg f).vflow
    ((extractFields cfg f).unk.getLsbD 3) := ⟨rfl, unknownFlags_vflow cfg f⟩

theorem readAs_hflow : ReadAs (lookupHflow cfg f[10]) .pos1 (extractFields cfg f).hflow
    ((extractFields cfg f).unk.getLsbD 4) := ⟨rfl, unknownFlags_hflow cfg f⟩

end

/-- The quiet collapse gives no code an answer and takes none away (R164). -/
theorem lookupFan_eq_none {cfg : Cfg} {c : Byte} : lookupFan cfg c = none ↔ c ∉ fanRows.map (fanCode cfg) := by
  rw [lookupFan, Option.map_eq_none_iff, lookupIn_eq_none]

/-- Settles O19: the power byte through the power table. -/
theorem powerLookup : Obligations.PowerLookup := by
  unfold Obligations.PowerLookup
  intro s f hwf
  have hread := readAs_power s.cfg f
  refine ⟨_, returns_extract.2 ⟨hwf, rfl⟩, fun h => hread.of_code h (lookupPower_code hwf .on),
    fun h => hread.of_code h (lookupPower_code hwf .off), fun hon hoff => hread.of_none (lookupIn_eq_none.2 ?_)⟩
  simpa [powerRows, powerCode] using And.intro hon hoff

/-- Settles O20: the mode byte through the mode table. -/
theorem modeLookup : Obligations.ModeLookup := by
  unfold Obligations.ModeLookup
  intro s f hwf
  have hread := readAs_mode s.cfg f
  exact ⟨_, returns_extract.2 ⟨hwf, rfl⟩,
    fun h => hread.of_code h (lookupMode_code hwf .cool), fun h => hread.of_code h (lookupMode_code hwf .heat),
    fun h => hread.of_code h (lookupMode_code hwf .auto), fun h => hread.of_code h (lookupMode_code hwf .dry),
    fun h => hread.of_code h (lookupMode_code hwf .fan), fun h => hread.of_code h (lookupMode_code hwf .off),
    fun h => hread.of_none (lookupIn_eq_none.2 h)⟩

/-- Settles O21: the fan byte through the fan table, whose rows QUIET and LOW both decode to LOW. -/
theorem fanLookup : Obligations.FanLookup := by
  unfold Obligations.FanLookup
  intro s f hwf
  have hread := readAs_fan s.cfg f
  refine ⟨_, returns_extract.2 ⟨hwf, rfl⟩,
    fun h => hread.of_code h (lookupFan_code hwf .high), fun h => hread.of_code h (lookupFan_code hwf .medium),
    fun h => hread.of_code h (lookupFan_code hwf .auto), ?_, fun h => hread.of_none (lookupFan_eq_none.2 h)⟩
  rintro (hquiet | hlow)
  · exact hread.of_code hquiet (lookupFan_code hwf .quiet)
  · exact hread.of_code hlow (lookupFan_code hwf .low)

/-- Settles O22: the vertical-airflow byte through its table. -/
theorem verticalAirflowLookup : Obligations.VerticalAirflowLookup := by
  unfold Obligations.VerticalAirflowLookup
  intro s f hwf
  have hread := readAs_vflow s.cfg f
  exact ⟨_, returns_extract.2 ⟨hwf, rfl⟩,
    fun h => hread.of_code h (lookupVflow_code hwf .pos1), fun h => hread.of_code h (lookupVflow_code hwf .pos2),
    fun h => hread.of_code h (lookupVflow_code hwf .pos3), fun h => hread.of_code h (lookupVflow_code hwf .pos4),
    fun h => hread.of_code h (lookupVflow_code hwf .pos5), fun h => hread.of_code h (lookupVflow_code hwf .pos6),
    fun h => hread.of_code h (lookupVflow_code hwf .swing), fun h => hread.of_none (lookupIn_eq_none.2 h)⟩

/-- Settles O23: the horizontal-airflow byte through its table, with a swing code of its own. -/
theorem horizontalAirflowLookup : Obligations.HorizontalAirflowLookup := by
  unfold Obligations.HorizontalAirflowLookup
  intro s f hwf
  have hread := readAs_hflow s.cfg f
  exact ⟨_, returns_extract.2 ⟨hwf, rfl⟩,
    fun h => hread.of_code h (lookupHflow_code hwf .pos1), fun h => hread.of_code h (lookupHflow_code hwf .pos2),
    fun h => hread.of_code h (lookupHflow_code hwf .pos3), fun h => hread.of_code h (lookupHflow_code hwf .pos4),
    fun h => hread.of_code h (lookupHflow_code hwf .pos5), fun h => hread.of_code h (lookupHflow_code hwf .pos6),
    fun h => hread.of_code h (lookupHflow_code hwf .swing), fun h => hread.of_none (lookupIn_eq_none.2 h)⟩

/-- No byte of a frame but 5 to 10 has a part in the record (R91, R168). -/
theorem extractFields_congr (cfg : Cfg) {f g : Frame} (h : ∀ k : Fin 20, 5 ≤ k.val → k.val ≤ 10 → f[k] = g[k]) :
    extractFields cfg f = extractFields cfg g := by
  have hpower : framePower f = framePower g := h 5 (by decide) (by decide)
  have hcurTemp : frameCurTemp f = frameCurTemp g := h 6 (by decide) (by decide)
  have hmode : frameMode f = frameMode g := h 7 (by decide) (by decide)
  have hfan : frameFan f = frameFan g := h 8 (by decide) (by decide)
  have hvflow : frameVflow f = frameVflow g := h 9 (by decide) (by decide)
  have hhflow : frameHflow f = frameHflow g := h 10 (by decide) (by decide)
  simp only [extractFields, unknownFlags, hpower, hcurTemp, hmode, hfan, hvflow, hhflow]

/-- Settles O24: a field and its flag are functions of the answer of the field's table to the field's byte. -/
theorem eachFieldIsReadFromItsOwnByte : Obligations.EachFieldIsReadFromItsOwnByte := by
  unfold Obligations.EachFieldIsReadFromItsOwnByte
  intro s f g hwf
  exact ⟨_, _, returns_extract.2 ⟨hwf, rfl⟩, returns_extract.2 ⟨hwf, rfl⟩, rfl,
    fun h => (readAs_power s.cfg f).congr (readAs_power s.cfg g) (congrArg _ h),
    fun h => (readAs_mode s.cfg f).congr (readAs_mode s.cfg g) (congrArg _ h),
    fun h => (readAs_fan s.cfg f).congr (readAs_fan s.cfg g) (congrArg _ h),
    fun h => (readAs_vflow s.cfg f).congr (readAs_vflow s.cfg g) (congrArg _ h),
    fun h => (readAs_hflow s.cfg f).congr (readAs_hflow s.cfg g) (congrArg _ h),
    extractFields_congr s.cfg⟩

/-- 0xFF can be no mode code but that of OFF (R9, R174). -/
theorem lookupMode_ff_eq_none {cfg : Cfg} (hwf : wellFormedCfg cfg) (hoff : cfg.modeOff ≠ 0xFF) :
    lookupMode cfg 0xFF = none := by
  obtain ⟨-, -, -, -, -, hauto, hdry, hfan⟩ := (wellFormedCfg_iff cfg).1 hwf
  refine lookupIn_eq_none.2 ?_
  simpa [modeRows, modeCode, eq_comm (a := 255#8)] using And.intro hauto ⟨hdry, hfan, hoff⟩

/-- Settles O26: a byte in no row gives the default OFF, flagged; 0xFF is in no row or in that of OFF. -/
theorem unknownModeFallsBackToOff : Obligations.UnknownModeFallsBackToOff := by
  unfold Obligations.UnknownModeFallsBackToOff
  intro s f hwf
  have hread := readAs_mode s.cfg f
  have hextract : Returns (.extract f) s (.extract (extractFields s.cfg f)) := returns_extract.2 ⟨hwf, rfl⟩
  refine ⟨fun hrow => ?_, fun hff => ⟨_, hextract, ?_⟩⟩
  · obtain ⟨hmode, hflag⟩ := hread.of_none (lookupIn_eq_none.2 hrow)
    exact ⟨_, hextract, hmode, hflag, fun hsum => returns_decode_of_valid hwf ((frameValid_iff f).2 hsum)⟩
  · by_cases hoff : s.cfg.modeOff = 0xFF
    · rw [decide_eq_false (not_not.2 hoff)]
      exact hread.of_code (hff.trans hoff.symm) (lookupMode_code hwf .off)
    · rw [decide_eq_true hoff]
      exact hread.of_none (hff ▸ lookupMode_ff_eq_none hwf hoff)

end Sys2Proof.Machine
end

