-- ==== Sys2Proof/Proofs/Encoder.lean ====
section
/-! SUPPORT. The statements of 42_encoder.md: the six bytes of ENCODE (R200 to R206), the clamp of the temperature
(R207), and the round trip of a payload through a frame (R208). -/

namespace Sys2Proof.Machine

/-! ### The bytes of a payload -/

theorem hasReservedValue_iff (d : DesiredState) : hasReservedValue d = true ↔
    d.modeReq = .reserved7 ∨ d.fanReq = .reserved6 ∨ d.fanReq = .reserved7 := by
  simp only [hasReservedValue, Bool.or_eq_true, beq_iff_eq, or_assoc]

theorem hasReservedValue_of_want {d : DesiredState} {m : Mode} {fs : FanSpeed} (hm : d.modeReq = .want m)
    (hf : d.fanReq = .want fs) : hasReservedValue d = false := by
  rw [← Bool.not_eq_true, hasReservedValue_iff, hm, hf]
  simp

theorem powerByte_of_want {cfg : Cfg} {d : DesiredState} {m : Mode} (h : d.modeReq = .want m) :
    powerByte cfg d = powerCode cfg (if m = .off then .off else .on) := by
  rw [powerByte, h, apply_ite (powerCode cfg)]
  simp

theorem modeByte_of_want {cfg : Cfg} {d : DesiredState} {m : Mode} (h : d.modeReq = .want m) :
    modeByte cfg d = modeCode cfg m := by
  rw [modeByte, h]

/-- No request is Auto (R201). -/
theorem modeByte_of_noRequest {cfg : Cfg} {d : DesiredState} (h : d.modeReq = .noRequest) :
    modeByte cfg d = cfg.modeAuto := by
  rw [modeByte, h]
  rfl

theorem fanByte_of_want {cfg : Cfg} {d : DesiredState} {fs : FanSpeed} (h : d.fanReq = .want fs) :
    fanByte cfg d = fanCode cfg fs := by
  rw [fanByte, h]

/-- No request is Auto (R203). -/
theorem fanByte_of_noRequest {cfg : Cfg} {d : DesiredState} (h : d.fanReq = .noRequest) :
    fanByte cfg d = cfg.fanAuto := by
  rw [fanByte, h]
  rfl

theorem tempByte_of_absent {d : DesiredState} (h : d.tempPresent = false) : tempByte d = 0x00 := by
  simp [tempByte, h]

/-- R202's remark: clamping first and truncating second, as `tempByte` does, gives what truncating first and clamping
second gives, since both bounds are whole degrees. -/
theorem tempByte_toNat_of_present {d : DesiredState} (h : d.tempPresent = true) :
    ((tempByte d).toNat : Int) = max 16 (min 30 (d.tempQ88.toInt / 256)) := by
  rw [tempByte, if_pos h]
  split_ifs with hlow hhigh
  · have hdeg : d.tempQ88.toInt / 256 < 16 := Int.ediv_lt_of_lt_mul (by decide) hlow
    show (16 : Int) = _
    omega
  · have hdeg : 30 ≤ d.tempQ88.toInt / 256 := (Int.le_ediv_iff_mul_le (by decide)).2 (le_of_lt hhigh)
    show (30 : Int) = _
    omega
  · have hmin : 16 * 256 ≤ d.tempQ88.toInt := Int.not_lt.1 hlow
    have hmax : d.tempQ88.toInt ≤ 30 * 256 := Int.not_lt.1 hhigh
    rw [BitVec.toNat_ofInt, targetTemp256]
    omega

theorem tempByte_of_low {d : DesiredState} (h : d.tempPresent = true) (hlow : d.tempQ88.toInt < 4096) :
    tempByte d = 16 := by
  have hbyte := tempByte_toNat_of_present h
  refine BitVec.eq_of_toNat_eq (show (tempByte d).toNat = 16 from ?_)
  omega

theorem tempByte_of_high {d : DesiredState} (h : d.tempPresent = true) (hhigh : 7680 < d.tempQ88.toInt) :
    tempByte d = 30 := by
  have hbyte := tempByte_toNat_of_present h
  refine BitVec.eq_of_toNat_eq (show (tempByte d).toNat = 30 from ?_)
  omega

theorem tempByte_toNat_of_mid {d : DesiredState} (h : d.tempPresent = true) (hmin : 4096 ≤ d.tempQ88.toInt)
    (hmax : d.tempQ88.toInt ≤ 7680) : ((tempByte d).toNat : Int) = d.tempQ88.toInt / 256 := by
  have hbyte := tempByte_toNat_of_present h
  omega

/-- The whole degrees of a Q8.8 value that is not negative are its upper byte (R202). -/
theorem tempByte_of_mid {d : DesiredState} (h : d.tempPresent = true) (hmin : 4096 ≤ d.tempQ88.toInt)
    (hmax : d.tempQ88.toInt ≤ 7680) : tempByte d = d.tempQ88.extractLsb' 8 8 := by
  have hbyte := tempByte_toNat_of_mid h hmin hmax
  have hq := BitVec.toInt_eq_toNat_cond d.tempQ88
  have hlt := d.tempQ88.isLt
  refine BitVec.eq_of_toNat_eq ?_
  rw [BitVec.extractLsb'_toNat, Nat.shiftRight_eq_div_pow]
  omega

theorem returns_encode_of_legal {d : DesiredState} {s : State} (hwf : wellFormedCfg s.cfg)
    (hd : hasReservedValue d = false) : Returns (.encode d) s (.encode (encodePayload s.cfg d)) :=
  returns_encode.2 ⟨hwf, hd, rfl⟩

/-- Settles O27: each byte by the rule of its field. -/
theorem encodeBuildsTheSixBytes : Obligations.EncodeBuildsTheSixBytes := by
  unfold Obligations.EncodeBuildsTheSixBytes
  refine fun s d hwf => ⟨fun hreserved => ?_, fun hmode hfan6 hfan7 => ?_⟩
  · exact exec_encode_of_reserved hwf ((hasReservedValue_iff d).2 hreserved)
  have hlegal : hasReservedValue d = false := by
    rw [← Bool.not_eq_true, hasReservedValue_iff]
    simp [hmode, hfan6, hfan7]
  refine ⟨encodePayload s.cfg d, returns_encode_of_legal hwf hlegal, rfl,
    fun h => h.elim modeByte_of_noRequest modeByte_of_want, modeByte_of_want, modeByte_of_want, modeByte_of_want,
    modeByte_of_want, modeByte_of_want,
    tempByte_of_absent, tempByte_of_low, tempByte_of_high,
    fun h hmin hmax => ⟨tempByte_of_mid h hmin hmax, tempByte_toNat_of_mid h hmin hmax⟩,
    fun h => h.elim fanByte_of_noRequest fanByte_of_want, fanByte_of_want, fanByte_of_want, fanByte_of_want,
    fanByte_of_want, ?_, ?_⟩
  · exact apply_ite (vflowCode s.cfg) _ _ _
  · exact apply_ite (hflowCode s.cfg) _ _ _

/-- Settles O28: the byte is the clamped whole degrees. -/
theorem temperatureClampLaw : Obligations.TemperatureClampLaw := by
  unfold Obligations.TemperatureClampLaw
  intro s d p hret hpresent
  obtain ⟨-, -, rfl⟩ := returns_encode.1 hret
  rw [encodePayload_temp]
  have hbyte := tempByte_toNat_of_present hpresent
  refine ⟨by omega, by omega, hbyte, fun hten => ?_, fun hthirtyFive => ?_⟩
  · exact tempByte_of_low hpresent (by rw [hten]; decide)
  · exact tempByte_of_high hpresent (by rw [hthirtyFive]; decide)

/-! ### The round trip -/

section
variable (p : Payload) (r : Frame)

/-- A wrapped payload has a correct checksum: byte 19 is no part of the sum it is written from. -/
theorem frameValid_wrap : frameValid (wrap p r) = true := by
  rw [frameValid_iff, wrap, sumSlice_set_last]
  simp [checksum]

theorem framePower_wrap : framePower (wrap p r) = p[0] := by simp [framePower, wrap]
theorem frameCurTemp_wrap : frameCurTemp (wrap p r) = p[2] := by simp [frameCurTemp, wrap]
theorem frameMode_wrap : frameMode (wrap p r) = p[1] := by simp [frameMode, wrap]
theorem frameFan_wrap : frameFan (wrap p r) = p[3] := by simp [frameFan, wrap]
theorem frameVflow_wrap : frameVflow (wrap p r) = p[4] := by simp [frameVflow, wrap]
theorem frameHflow_wrap : frameHflow (wrap p r) = p[5] := by simp [frameHflow, wrap]

end

/-- A payload made of the codes of rows, wrapped, is extracted to those rows with no flag set, whatever the temperature
byte and the rest of the frame; the one row that reads back as another is QUIET (R98, R208). -/
theorem extractFields_wrap_codes {cfg : Cfg} (hwf : wellFormedCfg cfg) (power : Power) (mode : Mode) (temp : Byte)
    (fan : FanSpeed) (vflow hflow : Airflow) (r : Frame) :
    extractFields cfg (wrap (payloadOf (powerCode cfg power) (modeCode cfg mode) temp (fanCode cfg fan)
      (vflowCode cfg vflow) (hflowCode cfg hflow)) r) = ⟨power, temp, mode, collapseQuiet fan, vflow, hflow, 0⟩ := by
  simp only [extractFields, unknownFlags, framePower_wrap, frameCurTemp_wrap, frameMode_wrap, frameFan_wrap,
    frameVflow_wrap, frameHflow_wrap]
  have hpower := lookupPower_code hwf power
  have hmode := lookupMode_code hwf mode
  have hfan := lookupFan_code hwf fan
  have hvflow := lookupVflow_code hwf vflow
  have hhflow := lookupHflow_code hwf hflow
  simp [payloadOf, hpower, hmode, hfan, hvflow, hhflow]

/-- The five coded bytes of ENCODE are codes of rows of their tables (R37). -/
theorem encodePayload_of_want {cfg : Cfg} {d : DesiredState} {m : Mode} {fs : FanSpeed} (hm : d.modeReq = .want m)
    (hf : d.fanReq = .want fs) : encodePayload cfg d = payloadOf (powerCode cfg (if m = .off then .off else .on))
      (modeCode cfg m) (tempByte d) (fanCode cfg fs) (vflowCode cfg (if d.vswing then .swing else .pos1))
      (hflowCode cfg (if d.hswing then .swing else .pos1)) := by
  rw [encodePayload, powerByte_of_want hm, modeByte_of_want hm, fanByte_of_want hf, vflowByte, hflowByte]

theorem collapseQuiet_of_ne {fs : FanSpeed} (h : fs ≠ .quiet) : collapseQuiet fs = fs := by
  cases fs with
  | quiet => exact absurd rfl h
  | auto => rfl
  | low => rfl
  | medium => rfl
  | high => rfl

/-- Settles O29: ENCODE writes codes of rows, the wrapped frame is valid, and EXTRACT reads those rows back, the fan
speed unchanged because it is not QUIET. -/
theorem roundTripLaw : Obligations.RoundTripLaw := by
  unfold Obligations.RoundTripLaw
  intro s d m fs r hwf hm hf hquiet
  have hfields := extractFields_wrap_codes hwf (if m = .off then .off else .on) m (tempByte d) fs
    (if d.vswing then .swing else .pos1) (if d.hswing then .swing else .pos1) r
  rw [← encodePayload_of_want hm hf, collapseQuiet_of_ne hquiet] at hfields
  have hdecode := returns_decode_of_valid hwf (frameValid_wrap (encodePayload s.cfg d) r)
  rw [hfields] at hdecode
  exact ⟨_, _, returns_encode_of_legal hwf (hasReservedValue_of_want hm hf), hdecode, rfl, rfl, rfl, rfl, rfl, rfl, rfl⟩

end Sys2Proof.Machine
end

