-- ==== Sys2Proof/Proofs/ReceivePath.lean ====
section
/-! SUPPORT. The statements of 43_receive_path.md: RX is FEED and then DECODE (R230), and frames delivered whole and in
order give one decoded event for each valid one (R231). What an RX returns is a function of the frame it emits, so the
decoded events of a run of RXs are a function of the frames it emits, which `emittedFramesAreTheStreamCut` gives. -/

namespace Sys2Proof.Machine

/-! ### One RX -/

/-- What RX returns when FEED emits `o` (R230). -/
def rxResult (cfg : Cfg) (o : Option Frame) : Result := .rx (o.map fun f => (f, decodeFrame cfg f))

theorem exec_rx_of_wf {s : State} (hwf : wellFormedCfg s.cfg) (b : Byte) :
    exec (.rx b) s = .next ((s.afterFeed b).report (rxResult s.cfg (s.emission b))) :=
  exec_rx_eq_next.2 ⟨hwf, rfl⟩

/-- Settles O30: RX and FEED leave the same state, and both returns are read off the one emission. -/
theorem rxIsFeedThenDecode : Obligations.RxIsFeedThenDecode := by
  unfold Obligations.RxIsFeedThenDecode
  intro s b hwf
  refine ⟨_, exec_feed_eq_next.2 ⟨hwf, rfl⟩, ?_⟩
  rw [exec_rx_of_wf hwf]
  cases s.emission b with
  | none => exact .inl ⟨rfl, rfl⟩
  | some f => exact .inr ⟨f, _, rfl, returns_decode.2 ⟨hwf, rfl⟩, rfl⟩

/-! ### The decoded events of RX results -/

@[simp] theorem emittedFrame_rxResult (cfg : Cfg) (o : Option Frame) : emittedFrame (rxResult cfg o) = o := by
  simp [emittedFrame, rxResult, Function.comp_def]

/-- The decoded event of an RX is the record of the frame it emits, if that frame decodes (R231). -/
@[simp] theorem decodedEvent_rxResult (cfg : Cfg) (o : Option Frame) :
    decodedEvent (rxResult cfg o) = o.bind fun f => (decodeFrame cfg f).toOption := by
  cases o with
  | none => rfl
  | some f =>
    rw [rxResult, Option.map_some, Option.bind_some]
    cases decodeFrame cfg f with
    | ok st => rfl
    | error e => rfl

theorem decodedEvents_append (rs rs' : List Result) :
    decodedEvents (rs ++ rs') = decodedEvents rs ++ decodedEvents rs' := List.filterMap_append

/-- A frame decodes exactly when it is valid, and then to EXTRACT's record (R169, R171). -/
theorem toOption_decodeFrame (cfg : Cfg) (f : Frame) :
    (decodeFrame cfg f).toOption = if frameValid f then some (extractFields cfg f) else none := by
  cases hv : frameValid f with
  | true => rw [decodeFrame_of_valid hv]; rfl
  | false => rw [decodeFrame_of_invalid hv]; rfl

/-- The decoded events of a list of RX results are the records of its valid frames, in order (R231). -/
theorem decodedEvents_map_rxResult (cfg : Cfg) (os : List (Option Frame)) :
    decodedEvents (os.map (rxResult cfg)) =
      ((emittedFrames (os.map (rxResult cfg))).filter frameValid).map (extractFields cfg) := by
  calc decodedEvents (os.map (rxResult cfg))
      = (emittedFrames (os.map (rxResult cfg))).filterMap fun f => (decodeFrame cfg f).toOption := by
        simp [decodedEvents, emittedFrames, List.filterMap_map, List.filterMap_filterMap]
    _ = ((emittedFrames (os.map (rxResult cfg))).filter frameValid).filterMap (some ∘ extractFields cfg) := by
        rw [List.filterMap_filter]
        simp only [toOption_decodeFrame, Function.comp_apply]
    _ = _ := congrFun List.filterMap_eq_map _

/-! ### A run of RXs -/

theorem step_rx {s : State} {b : Byte} {rest : List Request} (hwf : wellFormedCfg s.cfg)
    (hreq : s.requests = encode (.rx b) :: rest) : step s =
      .next ((({ s with requests := rest } : State).afterFeed b).report (rxResult s.cfg (s.emission b))) :=
  (step_eq_exec_of_decode hreq (decode_encode_of_byteTaken rfl)).trans
    (exec_rx_of_wf (s := { s with requests := rest }) hwf b)

theorem takeBytes_map_rx (bs : List Byte) : TakeBytes (bs.map .rx) bs := List.map_map

/-- A run of RXs adds RX results only, each a function of what its byte made the reassembler emit. -/
theorem runFor_map_rx {s : State} {bs : List Byte} (hwf : wellFormedCfg s.cfg)
    (hreq : s.requests = (bs.map .rx : List Instr).map encode) :
    ∃ (t : State) (os : List (Option Frame)), runFor bs.length s = .next t ∧
      t.results = s.results ++ os.map (rxResult s.cfg) := by
  induction bs generalizing s with
  | nil => exact ⟨s, [], rfl, (List.append_nil _).symm⟩
  | cons b bs ih =>
    obtain ⟨t, os, hrun, hresults⟩ := ih (s := (({ s with requests := (bs.map .rx : List Instr).map encode } :
      State).afterFeed b).report (rxResult s.cfg (s.emission b))) hwf rfl
    refine ⟨t, s.emission b :: os, (runFor_succ_of_next (step_rx hwf hreq)).trans hrun, ?_⟩
    exact hresults.trans (List.append_assoc ..)

/-- R92's validity, as the statement of R231 writes it. -/
theorem frameValid_eq_beq (f : Frame) : frameValid f = (f[19].toNat == sumSlice f 0 19 % 256) := by
  rw [Bool.eq_iff_iff, beq_iff_eq, frameValid_iff]

/-- Settles O31: whole frames from cursor 0 are cut out of the stream as they are, and the decoded events of the run are
the records of the valid frames among those it emits. -/
theorem losslessDeliveryDecodesEachValidFrame : Obligations.LosslessDeliveryDecodesEachValidFrame := by
  unfold Obligations.LosslessDeliveryDecodesEachValidFrame
  intro s fs hwf hzero hreq
  obtain ⟨t, os, hrun, hresults⟩ := runFor_map_rx hwf hreq
  obtain ⟨t', hrun', hframes, hcursor⟩ := emittedFramesAreTheStreamCut s _ _ hwf hzero (takeBytes_map_rx _) hreq
  rw [List.length_map, hrun] at hrun'
  obtain rfl := next_eq_next.1 hrun'.symm
  have hcut : cutFrames (streamOf fs).length (streamOf fs) = fs := by
    simpa using cutFrames_streamOf_append (rest := []) (by decide : 0 < 20) (by rw [streamOf_length]; omega)
  rw [hcut] at hframes
  have hemitted : emittedFrames (os.map (rxResult s.cfg)) = fs := by
    rw [hresults, emittedFrames_append] at hframes
    exact List.append_cancel_left hframes
  refine ⟨t, hrun, ?_, hframes, ?_⟩
  · rw [streamOf_length, Nat.mul_mod_right] at hcursor
    exact Fin.ext hcursor
  · rw [hresults, decodedEvents_append, decodedEvents_map_rxResult, hemitted, funext frameValid_eq_beq]

end Sys2Proof.Machine
end

