-- ==== Sys2Proof/Proofs/Exceptions.lean ====
section
/-! SUPPORT. The statements of 60_exceptions.md: how an operation and a step can end (R245, R246), the idle block
(R255), and the instances of a platform side by side (R253). -/

namespace Sys2Proof.Machine

/-! ### The idle step -/

/-- Settles O4: of the cases of a step, the other one has a request waiting. -/
theorem idleStepChangesNothing : Obligations.IdleStepChangesNothing := by
  unfold Obligations.IdleStepChangesNothing
  intro s hidle
  rcases step_cases s with ⟨-, hstep⟩ | ⟨r, rest, hreq, -⟩
  · exact hstep
  · rw [hidle] at hreq
    cases hreq

/-! ### How an operation and a step end -/

/-- The only operation that is not well formed is an ENCODE of a reserved value (R106, R109). -/
theorem wellFormed_eq_false {i : Instr} (h : i.wellFormed = false) :
    ∃ d, i = .encode d ∧ hasReservedValue d = true := by
  cases i with
  | encode d =>
    have hillegal : d.legal = false := h
    exact ⟨d, rfl, by rw [hasReservedValue_eq_not_legal, hillegal, Bool.not_false]⟩
  | feed _ | check _ | extract _ | decode _ | rx _ | reset => cases h

theorem exec_completes {i : Instr} {s : State} (hwf : wellFormedCfg s.cfg) (hi : i.wellFormed = true) :
    Completes (exec i s) := by
  cases i with
  | feed b => exact ⟨_, exec_feed_eq_next.2 ⟨hwf, rfl⟩⟩
  | check f => exact ⟨_, exec_check_eq_next.2 ⟨hwf, rfl⟩⟩
  | extract f => exact ⟨_, exec_extract_eq_next.2 ⟨hwf, rfl⟩⟩
  | decode f => exact ⟨_, exec_decode_eq_next.2 ⟨hwf, rfl⟩⟩
  | rx b => exact ⟨_, exec_rx_eq_next.2 ⟨hwf, rfl⟩⟩
  | reset => exact ⟨_, exec_reset_eq_next.2 ⟨hwf, rfl⟩⟩
  | encode d =>
    have hlegal : d.legal = true := hi
    have hreserved : hasReservedValue d = false := by rw [hasReservedValue_eq_not_legal, hlegal, Bool.not_true]
    exact ⟨_, exec_encode_eq_next.2 ⟨hwf, hreserved, rfl⟩⟩

/-- No operation touches the requests still waiting. -/
theorem exec_requests {i : Instr} {s t : State} (h : exec i s = .next t) : t.requests = s.requests := by
  rcases exec_eq_next_cases h with ⟨b, r, -, rfl⟩ | ⟨-, rfl⟩ | ⟨-, -, r, rfl⟩
  · simp
  · simp
  · simp

/-- How an operation can end (R15, R245, R246): it completes, or one of two refusals is raised. -/
theorem exec_outcome_cases (i : Instr) (s : State) :
    Completes (exec i s) ∨ exec i s = .refused .reservedValue ∨ exec i s = .refused .badConfig := by
  by_cases hwf : wellFormedCfg s.cfg
  · cases hi : i.wellFormed with
    | true => exact .inl (exec_completes hwf hi)
    | false =>
      obtain ⟨d, rfl, hreserved⟩ := wellFormed_eq_false hi
      exact .inr (.inl (exec_encode_of_reserved hwf hreserved))
  · exact .inr (.inr (exec_of_not_wf hwf i))

/-- The decoder rejects with one of the two refusals of R103. -/
theorem refusalOf_cases (e : DecodeError) : refusalOf e = .reservedOp ∨ refusalOf e = .badOperand := by
  cases e with
  | reservedOp => exact .inl rfl
  | badOperand => exact .inr rfl

/-- Settles O43: two of the four refusals are the operation's, the other two the decoder's. -/
theorem everyWellFormedOperationCompletes : Obligations.EveryWellFormedOperationCompletes := by
  unfold Obligations.EveryWellFormedOperationCompletes
  refine ⟨fun i s hwf hi => ?_, fun s => ?_⟩
  · obtain ⟨t, hexec⟩ := exec_completes hwf hi
    obtain ⟨r, hresults⟩ := exec_results hexec
    exact ⟨t, r, hexec, hresults, exec_requests hexec⟩
  · rcases step_cases s with ⟨-, hstep⟩ | ⟨r, rest, -, ⟨i, -, hstep⟩ | ⟨e, -, hstep⟩⟩
    · exact .inl ⟨s, hstep⟩
    · rw [hstep]
      rcases exec_outcome_cases i { s with requests := rest } with hdone | hreserved | hconfig
      · exact .inl hdone
      · exact .inr ⟨_, hreserved, .inr (.inr (.inl rfl))⟩
      · exact .inr ⟨_, hconfig, .inr (.inr (.inr rfl))⟩
    · rcases refusalOf_cases e with hop | hoperand
      · exact .inr ⟨_, hstep, .inl hop⟩
      · exact .inr ⟨_, hstep, .inr (.inl hoperand)⟩

/-! ### Instances side by side -/

/-- An instance of a platform steps exactly if it is there and its own step answers a next state, which takes its place
in the list. -/
theorem Platform.stepAt_eq_some {p q : Platform} {k : Nat} : p.stepAt k = some q ↔
    ∃ s t, p.blocks[k]? = some s ∧ step s = .next t ∧ q = ⟨p.blocks.set k t⟩ := by
  unfold Platform.stepAt
  rcases hblock : p.blocks[k]? with - | s
  · simp
  · rcases hstep : step s with t | f | a
    · simp [hstep, eq_comm (a := q)]
    · cases f
    · simp [hstep]

/-- Settles O47: an instance's step reads and writes its own place in the list, and writes to two places commute. -/
theorem instancesDoNotInterfere : Obligations.InstancesDoNotInterfere := by
  unfold Obligations.InstancesDoNotInterfere
  intro p q j k hne hj
  obtain ⟨s, t, hs, hst, rfl⟩ := Platform.stepAt_eq_some.1 hj
  have hkept : (p.blocks.set j t)[k]? = p.blocks[k]? := List.getElem?_set_ne hne
  refine ⟨hkept, fun r hk => ?_⟩
  obtain ⟨s', t', hs', hst', rfl⟩ := Platform.stepAt_eq_some.1 hk
  have hkept' : (p.blocks.set k t')[j]? = p.blocks[j]? := List.getElem?_set_ne hne.symm
  refine ⟨⟨(p.blocks.set j t).set k t'⟩, ?_, ?_⟩
  · exact Platform.stepAt_eq_some.2 ⟨s', t', hkept.trans hs', hst', rfl⟩
  · exact Platform.stepAt_eq_some.2 ⟨s, t, hkept'.trans hs, hst, by rw [List.set_comm _ _ hne]⟩

end Sys2Proof.Machine
end

