-- ==== Sys2Proof/Proofs/ResetAndHazards.lean ====
section
/-! SUPPORT. The statements of 70_reset_and_hazards.md: RESET discards a partial frame, and the next twenty bytes are
the next frame (R271); two changes that cancel modulo 256 pass the checksum (R274). -/

namespace Sys2Proof.Machine

/-! ### RESET and the frame after it -/

/-- A FEED that is done leaves the reassembler as `State.afterFeed` says, and its emission in the record (R140). -/
theorem step_feed {s : State} {b : Byte} {rest : List Request} (hwf : wellFormedCfg s.cfg)
    (hreq : s.requests = encode (.feed b) :: rest) :
    ∃ u, step s = .next u ∧ u.cursor = (s.afterFeed b).cursor ∧ u.waiting = (s.afterFeed b).waiting ∧
      u.cfg = s.cfg ∧ u.requests = rest ∧ u.results = s.results ++ [.feed (s.emission b)] := by
  have hstep := step_eq_exec_of_decode hreq (decodeGivesBackWhatIsEncoded (.feed b))
  exact ⟨_, hstep.trans (exec_feed_eq_next.2 ⟨hwf, rfl⟩), rfl, rfl, rfl, rfl, rfl⟩

/-- A RESET that is done leaves the cursor at 0, and its mark in the record (R143). -/
theorem step_reset {s : State} {rest : List Request} (hwf : wellFormedCfg s.cfg)
    (hreq : s.requests = encode .reset :: rest) :
    ∃ u, step s = .next u ∧ u.cursor = 0 ∧ u.cfg = s.cfg ∧ u.requests = rest ∧ u.results = s.results ++ [.reset] := by
  have hstep := step_eq_exec_of_decode hreq (decodeGivesBackWhatIsEncoded .reset)
  exact ⟨_, hstep.trans (exec_reset_eq_next.2 ⟨hwf, rfl⟩), by simp⟩

/-- A byte that completes no frame waits behind those that waited (R140). -/
theorem State.waiting_afterFeed_of_lt {s : State} (h : s.cursor.val < 19) (b : Byte) :
    (s.afterFeed b).waiting = s.waiting ++ [b] := by
  have hconserved := s.emission_append_waiting b
  rwa [State.emission_of_lt h] at hconserved

/-- The byte that completes a frame stands last in it, behind those that waited (R140). -/
theorem State.filledBuf_toList_of_last {s : State} (h : s.cursor.val = 19) (b : Byte) :
    (s.filledBuf b).toList = s.waiting ++ [b] := by
  rw [← s.filledBuf_take b, h, List.take_of_length_le (by simp)]

/-- FEEDs of exactly the bytes a partial frame still lacks emit nothing until the last, which emits the whole frame
(R140): the bytes that wait, and then those fed. -/
theorem runFor_feeds_completing {s : State} {f : Frame} {b : Byte} {bs : List Byte} (hwf : wellFormedCfg s.cfg)
    (hfill : s.waiting ++ b :: bs = f.toList) (hreq : s.requests = ((b :: bs).map .feed : List Instr).map encode) :
    ∃ t, runFor (b :: bs).length s = .next t ∧ t.cursor = 0 ∧
      t.results = s.results ++ List.replicate bs.length (.feed none) ++ [.feed (some f)] := by
  induction bs generalizing s b with
  | nil =>
    have hlast : s.cursor.val = 19 := by simpa using congrArg List.length hfill
    have hframe : s.filledBuf b = f := Vector.toList_inj.1 ((State.filledBuf_toList_of_last hlast b).trans hfill)
    obtain ⟨u, hstep, hcursor, -, -, -, hresults⟩ := step_feed hwf hreq
    rw [State.emission_of_last hlast, hframe] at hresults
    refine ⟨u, runFor_succ_of_next hstep, Fin.ext ?_, by simpa using hresults⟩
    rw [hcursor, State.afterFeed_cursor_val, hlast]
    rfl
  | cons c bs ih =>
    have hlt : s.cursor.val < 19 := by
      have hlength : s.cursor.val + (bs.length + 2) = 20 := by simpa using congrArg List.length hfill
      omega
    obtain ⟨u, hstep, -, hwaiting, hcfg, hrequests, hresults⟩ := step_feed hwf hreq
    rw [State.emission_of_lt hlt] at hresults
    have hrest : u.waiting ++ c :: bs = f.toList := by
      rw [hwaiting, State.waiting_afterFeed_of_lt hlt, List.append_assoc, List.singleton_append, hfill]
    obtain ⟨t, hrun, hcursor, hfinal⟩ := ih (hcfg ▸ hwf) hrest hrequests
    exact ⟨t, (runFor_succ_of_next hstep).trans hrun, hcursor, by simp [hfinal, hresults, List.replicate_succ]⟩

/-- Settles O13: RESET leaves no byte waiting, so the twenty bytes fed after it are a whole frame. -/
theorem resetDiscardsAPartialFrame : Obligations.ResetDiscardsAPartialFrame := by
  unfold Obligations.ResetDiscardsAPartialFrame
  intro s f hwf hreq
  obtain ⟨b, bs, hbytes⟩ := List.exists_cons_of_length_eq_add_one f.length_toList
  have hlength : bs.length = 19 := by simpa [hbytes] using f.length_toList
  rw [hbytes] at hreq
  obtain ⟨u, hstep, hcursor, hcfg, hrequests, hresults⟩ := step_reset hwf hreq
  have hfill : u.waiting ++ b :: bs = f.toList := by
    rw [State.waiting_of_cursor_zero hcursor, List.nil_append, hbytes]
  obtain ⟨t, hrun, hdone⟩ := runFor_feeds_completing (hcfg ▸ hwf) hfill hrequests
  rw [List.length_cons, hlength] at hrun
  rw [hresults, hlength] at hdone
  exact ⟨t, (runFor_succ_of_next hstep).trans hrun, hdone⟩

/-! ### Changes the checksum does not see -/

/-- What one byte gains the other loses, so the sum of bytes 0 to 18 is the same modulo 256 (R160, R274). -/
theorem sumSlice_cancelling_mod {f : Frame} {i j : Nat} (hi : i < 19) (hj : j < 19) (hne : i ≠ j) (d : Byte) :
    sumSlice ((f.set i (f[i] + d)).set j (f[j] - d)) 0 19 % 256 = sumSlice f 0 19 % 256 := by
  have hgain := sumSlice_set f i hi (f[i] + d)
  have hloss := sumSlice_set (f.set i (f[i] + d)) j hj (f[j] - d)
  rw [Vector.getElem_set_ne _ _ hne] at hloss
  rw [BitVec.toNat_add] at hgain
  rw [BitVec.toNat_sub] at hloss
  omega

/-- Settles O17: the sum is the same modulo 256, and byte 19, which it is compared with, is not written. -/
theorem cancellingChangesStayValid : Obligations.CancellingChangesStayValid := by
  unfold Obligations.CancellingChangesStayValid
  intro s f i j d hi hj hne h
  obtain ⟨hwf, hvalid⟩ := returns_check_true.1 h
  rw [frameValid_iff] at hvalid
  refine returns_check_true.2 ⟨hwf, (frameValid_iff _).2 ?_⟩
  rw [Vector.getElem_set_ne _ _ hj.ne, Vector.getElem_set_ne _ _ hi.ne, hvalid]
  exact (sumSlice_cancelling_mod hi hj (Fin.val_ne_of_ne hne) d).symm

end Sys2Proof.Machine
end
